-- ==== Sys2Proof/Word.lean ====
section
/-! DEFINITION. The 16-bit word of the machine under its two readings (spec R4 to R9). -/

namespace Sys2Proof

/-- `RegisterValue` (R6): a 16-bit cell read as a signed integer by `BitVec.toInt`. Every CPU data register
and every RAM cell is one. PRESUMED, unsafe (log entry 14): the two's-complement pattern, which R6 marks as general knowledge. -/
abbrev RegisterValue := BitVec 16

/-- `Address` (R8): the same 16 bits read unsigned, 0 to 65535, by `BitVec.toNat`. IA and Arg0 hold one. -/
abbrev Address := BitVec 16

/-- The size of the one global address space, `2^16` positions (R50). -/
def addressSpaceSize : Nat := 65536

end Sys2Proof
end

