-- ==== Sys2Proof/Config.lean ====
section
/-! DEFINITION. What a platform fixes (R35): the bus bindings and the RAM capacity, and the free answers of the peripherals (R66). -/

namespace Sys2Proof

/-- A half-open interval `[start, stop)` of global addresses (R52). The bounds are integers 0 to 65536, held
outside every register (R53), so that a range can contain address 65535. -/
structure AddressRange where
  start : Nat
  stop : Nat
  deriving DecidableEq, Repr

/-- What a range is bound to: the RAM, the one concrete slave of the spec (R65), or peripheral number `device` (R66). -/
inductive Slave where
  | ram
  | peripheral (device : Nat)
  deriving DecidableEq, Repr

/-- One `(AddressRange, Slave)` pair of the bus (R55). -/
structure Binding where
  range : AddressRange
  slave : Slave
  deriving DecidableEq, Repr

/-- The parameters of the step relation that a platform chooses (R35, R55): RAM's capacity `RAM_SIZE` and the ordered
list of bindings. Any list is allowed here; `Platform.wellFormed` is the configuration-time check of R53, R54 and R56. -/
structure Platform where
  ramCapacity : Nat
  bindings : List Binding
  deriving DecidableEq, Repr

/-- One access a peripheral receives: the slave sees a local offset and never a global address (R62). -/
inductive Access where
  | read (offset : Nat)
  | write (offset : Nat) (value : RegisterValue)
  deriving DecidableEq, Repr

namespace Config

/-- What peripheral `device` answers to a read of `offset` after the accesses `history` (newest first): a RegisterValue, or
`none` for the error response "offset out of bounds" (R63). FREE VALUE (log entry 2): the spec assumes nothing about it (R66). -/
opaque peripheralRead (device : Nat) (history : List Access) (offset : Nat) : Option RegisterValue

/-- Whether peripheral `device` accepts a write of `value` at `offset` after the accesses `history` (newest first); `false` is
the error response "offset out of bounds" (R63). FREE VALUE (log entry 2): the spec assumes nothing about it (R66). -/
opaque peripheralAccepts (device : Nat) (history : List Access) (offset : Nat) (value : RegisterValue) : Bool

/-- The platform of `State.reset`: RAM in every one of the 65536 addresses and no peripheral. DESIGN CHOICE, unsafe (log
entry 3): R4 leaves `RAM_SIZE` and `PERIPH` open; a claim over all states is a claim over all platforms. -/
def defaultPlatform : Platform :=
  { ramCapacity := 65536, bindings := [{ range := { start := 0, stop := 65536 }, slave := .ram }] }

end Config

end Sys2Proof
end

