-- ==== Sys2Proof/Syntax.lean ====
section
/-! DEFINITION. The closed set of 16 instructions (R94), one constructor for each row of spec/opcode_table.json. -/

namespace Sys2Proof

/-- An instruction. A format A instruction carries its operand address, the content of Arg0 (R92, R96); a format Z
instruction carries nothing (R91). No instruction names a register (R20). -/
inductive Instr where
  | noop
  | ld (addr : Address)
  | st (addr : Address)
  | add (addr : Address)
  | neg
  | mul (addr : Address)
  | div (addr : Address)
  | eq (addr : Address)
  | gt (addr : Address)
  | not
  | and (addr : Address)
  | or (addr : Address)
  | jmp (addr : Address)
  | jif (addr : Address)
  | sqrt
  | halt
  deriving DecidableEq, Repr

end Sys2Proof
end

