-- ==== Sys2Proof/WellFormed.lean ====
section
/-! DEFINITION. The checks made before any step: on an instruction (none can fail) and on a platform (R53, R54, R56). -/

namespace Sys2Proof

/-- Every instruction is well-formed: the operand's type is exactly the Addresses 0 to 65535, and "no encoding of the
operand cell is illegal" (R99, R96). -/
def Instr.wellFormed : Instr → Bool
  | .noop => true
  | .ld _ => true
  | .st _ => true
  | .add _ => true
  | .neg => true
  | .mul _ => true
  | .div _ => true
  | .eq _ => true
  | .gt _ => true
  | .not => true
  | .and _ => true
  | .or _ => true
  | .jmp _ => true
  | .jif _ => true
  | .sqrt => true
  | .halt => true

/-- `0 <= start <= end <= 65536` (R53, R54). -/
def AddressRange.wellFormed (r : AddressRange) : Bool :=
  decide (r.start ≤ r.stop) && decide (r.stop ≤ addressSpaceSize)

/-- The membership test `start <= addr < end` (R52). -/
def AddressRange.contains (r : AddressRange) (addr : Nat) : Bool :=
  decide (r.start ≤ addr) && decide (addr < r.stop)

/-- Two ranges overlap when some address belongs to both; an empty range overlaps nothing (R56). -/
def AddressRange.overlaps (r q : AddressRange) : Bool :=
  decide (max r.start q.start < min r.stop q.stop)

/-- No range of the list overlaps a later one (R56). -/
def rangesDisjoint : List AddressRange → Bool
  | [] => true
  | r :: rs => rs.all (fun q => !r.overlaps q) && rangesDisjoint rs

/-- The configuration-time check (R235 (a)): every range is a range of the address space, no two overlap, and
`0 <= RAM_SIZE <= 65536` (R4). RAM's range may differ from its capacity: R69 allows a bus built by hand. -/
def Platform.wellFormed (p : Platform) : Bool :=
  decide (p.ramCapacity ≤ addressSpaceSize) && p.bindings.all (fun b => b.range.wellFormed) &&
    rangesDisjoint (p.bindings.map (fun b => b.range))

end Sys2Proof
end

