-- ==== Sys2Proof/Decode.lean ====
section
/-! DEFINITION. Value conversions (R7 to R9), the opcode map (R94), decoding and encoding of instruction cells (R90 to R104). -/

namespace Sys2Proof

/-- `wrap16` (R7): the RegisterValue congruent to `i` modulo 65536. -/
def wrap16 (i : Int) : RegisterValue := BitVec.ofInt 16 i

/-- `wrapA` (R8): the Address `i mod 65536`. -/
def wrapA (i : Int) : Address := BitVec.ofInt 16 i

/-- `toAddr(v) = v mod 65536` (R9). -/
def toAddr (v : RegisterValue) : Address := wrapA v.toInt

/-- `toReg(a) = wrap16(a)` (R9). -/
def toReg (a : Address) : RegisterValue := wrap16 a.toNat

/-- The next address, `wrapA(a + 1)`: 65535 is followed by 0 (R22). -/
def nextAddress (a : Address) : Address := wrapA (a.toNat + 1)

/-- The named parameter `OPC_SQRT`, value 0xE1 as the spec takes it (R4, R94). -/
def opcSqrt : RegisterValue := 0x00E1#16

/-- The two instruction formats: one cell (R91), or an opcode cell and an operand-address cell (R92). -/
inductive Format where
  | z
  | a
  deriving DecidableEq, Repr

/-- The operand count of a format (R94). -/
def Format.operands : Format → Nat
  | .z => 0
  | .a => 1

/-- A row of the opcode map: mnemonic, whole opcode cell, format, and the instruction it selects for an operand address. -/
structure OpcodeRow where
  mnemonic : String
  opcode : RegisterValue
  format : Format
  build : Address → Instr

/-- The complete opcode map of R94, in the table's order. -/
def opcodeTable : List OpcodeRow :=
  [ ⟨"Noop", 0x0000#16, .z, fun _ => .noop⟩,
    ⟨"Ld", 0x0001#16, .a, .ld⟩,
    ⟨"St", 0x0002#16, .a, .st⟩,
    ⟨"Add", 0x0003#16, .a, .add⟩,
    ⟨"Neg", 0x0004#16, .z, fun _ => .neg⟩,
    ⟨"Mul", 0x0005#16, .a, .mul⟩,
    ⟨"Div", 0x0006#16, .a, .div⟩,
    ⟨"Eq", 0x0007#16, .a, .eq⟩,
    ⟨"Gt", 0x0008#16, .a, .gt⟩,
    ⟨"Not", 0x0009#16, .z, fun _ => .not⟩,
    ⟨"And", 0x000A#16, .a, .and⟩,
    ⟨"Or", 0x000B#16, .a, .or⟩,
    ⟨"Jmp", 0x000C#16, .a, .jmp⟩,
    ⟨"Jif", 0x000D#16, .a, .jif⟩,
    ⟨"Sqrt", opcSqrt, .z, fun _ => .sqrt⟩,
    ⟨"Halt", 0x00FF#16, .z, fun _ => .halt⟩ ]

/-- Opcode matching compares the whole 16-bit cell (R93); every other value has no row (R97). -/
def lookupOpcode (oc : RegisterValue) : Option OpcodeRow :=
  opcodeTable.find? (fun row => row.opcode == oc)

/-- `operand_count(OC)`, none for an illegal opcode cell (R95, R97, R123). -/
def operandCount (oc : RegisterValue) : Option Nat :=
  (lookupOpcode oc).map (fun row => row.format.operands)

/-- The instruction that the fetched opcode cell and operand address stand for: what the execute stage selects (R126). -/
def instrOf (oc : RegisterValue) (arg0 : Address) : Option Instr :=
  (lookupOpcode oc).map (fun row => row.build arg0)

/-- Why a list of cells does not begin with an instruction: it is empty, its first cell is none of the 16 opcode
values (R97), or a format A opcode has no operand cell after it (R92). -/
inductive DecodeError where
  | noCell
  | illegalOpcode (cell : RegisterValue)
  | missingOperand (cell : RegisterValue)
  deriving DecidableEq, Repr

/-- Decode the instruction at the head of a list of cells and give the cells after it (R90 to R97). Total: the length is
decided by the opcode cell alone (R95), and the operand cell is taken whole by `toAddr` (R96). -/
def decode (cells : List RegisterValue) : Except DecodeError (Instr × List RegisterValue) :=
  match cells with
  | [] => .error .noCell
  | oc :: rest =>
    match lookupOpcode oc with
    | none => .error (.illegalOpcode oc)
    | some row =>
      match row.format, rest with
      | .z, rest => .ok (row.build 0#16, rest)
      | .a, [] => .error (.missingOperand oc)
      | .a, arg :: rest => .ok (row.build (toAddr arg), rest)

/-- The cells of an instruction (R104, written from R91, R92 and R94): `op` for format Z, `op, toReg(t)` for format A. -/
def encode : Instr → List RegisterValue
  | .noop => [0x0000#16]
  | .ld t => [0x0001#16, toReg t]
  | .st t => [0x0002#16, toReg t]
  | .add t => [0x0003#16, toReg t]
  | .neg => [0x0004#16]
  | .mul t => [0x0005#16, toReg t]
  | .div t => [0x0006#16, toReg t]
  | .eq t => [0x0007#16, toReg t]
  | .gt t => [0x0008#16, toReg t]
  | .not => [0x0009#16]
  | .and t => [0x000A#16, toReg t]
  | .or t => [0x000B#16, toReg t]
  | .jmp t => [0x000C#16, toReg t]
  | .jif t => [0x000D#16, toReg t]
  | .sqrt => [opcSqrt]
  | .halt => [0x00FF#16]

/-- The two cells of a number that holds an instruction's bits as spec/opcode_table.json numbers them: the opcode cell in bits
15 to 0, the operand cell in bits 31 to 16, every bit from `nbits` up read as 0. -/
def tableCells (nbits w : Nat) : RegisterValue × RegisterValue :=
  (BitVec.ofNat 16 (w % 2 ^ nbits), BitVec.ofNat 16 (w % 2 ^ nbits / 65536))

/-- The instruction the decoder reads from the bits `w` of a table row. -/
def decodeTableWord (nbits w : Nat) : Option Instr :=
  match decode [(tableCells nbits w).1, (tableCells nbits w).2] with
  | .ok (i, _) => some i
  | .error _ => none

end Sys2Proof
end

