-- ==== Sys2Proof/Machine/Alu.lean ====
section
/-! DEFINITION. The integer functions of the ALU (R160 to R167): computed exactly on signed integers, then reduced by `wrap16`. -/

namespace Sys2Proof.Machine

/-- `trunc(x / y)` (R10): the exact quotient rounded toward zero, for `y ≠ 0`. -/
def truncDiv (x y : Int) : Int := Int.tdiv x y

/-- The largest `r` in `[acc, acc + 2^k)` with `r*r <= n`, one bit of the root at a time from bit `k - 1` down. -/
def isqrtBits : Nat → Nat → Nat → Nat
  | 0, _, acc => acc
  | k + 1, n, acc => if (acc + 2 ^ k) * (acc + 2 ^ k) ≤ n then isqrtBits k n (acc + 2 ^ k) else isqrtBits k n acc

/-- `isqrt(n)` (R10) for `n < 65536`: the largest `r` with `r*r <= n`, eight bits of root. -/
def isqrt (n : Nat) : Nat := isqrtBits 8 n 0

/-- R161. -/
def aluAdd (acc a : RegisterValue) : RegisterValue := wrap16 (acc.toInt + a.toInt)

/-- R162. -/
def aluNeg (acc : RegisterValue) : RegisterValue := wrap16 (-acc.toInt)

/-- R163: the signed product; only its low 16 bits are kept. -/
def aluMul (acc a : RegisterValue) : RegisterValue := wrap16 (acc.toInt * a.toInt)

/-- R164, for a divisor other than 0; -32768 / -1 wraps to -32768. -/
def aluDiv (acc a : RegisterValue) : RegisterValue := wrap16 (truncDiv acc.toInt a.toInt)

/-- R165, for an accumulator that is not negative. -/
def aluSqrt (acc : RegisterValue) : RegisterValue := wrap16 (isqrt acc.toInt.toNat)

end Sys2Proof.Machine
end

