-- ==== Sys2Proof/Machine/State.lean ====
section
/-! DEFINITION. The machine's state as plain data (R20 to R37), the reasons outside the machine, and the state after reset (R36). -/

namespace Sys2Proof.Machine

/-- STAGE (R27): the controller's position in the instruction cycle. -/
inductive Stage where
  | awaitingFetch
  | awaitingDecode
  | awaitingOperand
  | awaitingExecute
  deriving DecidableEq, Repr

/-- RUN (R28): the run state; `halted` and `faulted` are left only by a reset. -/
inductive RunState where
  | running
  | halted
  | faulted
  deriving DecidableEq, Repr

/-- FAULT.kind (R220). `none` stands in the record whenever RUN is not Faulted. -/
inductive FaultKind where
  | none
  | invalidInstruction
  | busFault
  | slaveBoundsFault
  | arithmeticFault
  deriving DecidableEq, Repr

/-- FAULT (R29): the fault record. -/
structure FaultRecord where
  kind : FaultKind
  ia : Address
  oc : RegisterValue
  addr : Address
  deriving DecidableEq, Repr

/-- The record while no fault is latched: kind None, the other fields 0 (R29). -/
def FaultRecord.clear : FaultRecord := { kind := .none, ia := 0#16, oc := 0#16, addr := 0#16 }

/-- One access forwarded by the bus to a peripheral. -/
structure DeviceAccess where
  device : Nat
  access : Access
  deriving DecidableEq, Repr

/-- RAM's contents (R33): pairs of local offset and 16-bit cell, the unit of addressing (R50; log entry 1), offsets strictly rising, no cell equal to 0, which is what an
unlisted offset reads as (R36, R37). -/
abbrev Memory := List (Nat × RegisterValue)

/-- All the state the spec gives the machine. `platform` is the configuration of R35, carried here so that a claim over
all states is one over all platforms; no step changes it (R55; log entry 4). `deviceLog` (newest first) stands for the opaque states of the
peripherals (R66): a peripheral's state is its state at power-on and the accesses it has received since (log entry 2). -/
structure State where
  ia : Address
  oc : RegisterValue
  arg0 : Address
  acc : RegisterValue
  stage : Stage
  run : RunState
  fault : FaultRecord
  platform : Platform
  ram : Memory
  deviceLog : List DeviceAccess
  deriving DecidableEq, Repr

/-- Errors the host port answers to the host that asked; they stop nothing and are never an outcome of `step` or `exec`,
because every fault of the machine is a latched state (R226). -/
inductive Fault where
  /-- `hostInspect` of an unmapped address (R70, R235 (c)). Safe: no state changes. -/
  | inspectUnmapped (addr : Address)
  /-- `hostInspect` of an address whose slave rejects the offset (R58, R70). Safe: no register, STAGE, RUN or FAULT changes. -/
  | inspectRejected (addr : Address)
  deriving DecidableEq, Repr

/-- What the model gives no meaning to. -/
inductive Refusal where
  /-- An instruction with no meaning yet, raised by `exec` alone. Safe: nothing is claimed of it. No arm raises it. -/
  | notModelled (mnemonic : String)
  /-- Raised by `buildPlatform` and `buildMachine`: the configuration is refused (R54, R56, R68). Safe: it has no runs. -/
  | platformRejected
  /-- Raised by `hostLoadProgram`: more cells than `RAM_SIZE` (R265). Safe: nothing is written. -/
  | programTooLong
  /-- Raised by `hostLoadProgram`: STAGE is not AwaitingFetch (R266). Safe: a host error with no meaning. -/
  | loadDuringCycle
  deriving DecidableEq, Repr

/-- The three outcomes of a step. -/
abbrev Result := Host.Outcome State Fault Refusal

/-- The answer of one bus access or of an operation made of them: a value, or the kind of fault to raise; both with the
state the access leaves, since a peripheral access may change the peripheral (R66). -/
inductive Reply (α : Type) where
  | ok (value : α) (s : State)
  | error (kind : FaultKind) (s : State)
  deriving Repr

/-- Power-on on a platform (R36, R263): every register and RAM cell 0, between cycles, running, no fault. -/
def State.powerOn (p : Platform) : State :=
  { ia := 0#16, oc := 0#16, arg0 := 0#16, acc := 0#16, stage := .awaitingFetch, run := .running,
    fault := FaultRecord.clear, platform := p, ram := [], deviceLog := [] }

/-- The machine right after reset (R36), on the default platform (log entry 3). -/
def State.reset : State := State.powerOn Config.defaultPlatform

end Sys2Proof.Machine
end

