-- ==== Sys2Proof/Machine/Ops.lean ====
section
/-! DEFINITION. The named operations over registers, RAM and the bus (R55 to R66), raising a fault (R226), and the resets (R260, R261). -/

namespace Sys2Proof.Machine

/-- Write IA (R21). -/
def State.setIa (s : State) (v : Address) : State := { s with ia := v }
/-- Write OC (R23). -/
def State.setOc (s : State) (v : RegisterValue) : State := { s with oc := v }
/-- Write Arg0 (R24). -/
def State.setArg0 (s : State) (v : Address) : State := { s with arg0 := v }
/-- Write Acc (R25). -/
def State.setAcc (s : State) (v : RegisterValue) : State := { s with acc := v }
/-- Write STAGE (R27). -/
def State.setStage (s : State) (v : Stage) : State := { s with stage := v }
/-- Write RUN (R28). -/
def State.setRun (s : State) (v : RunState) : State := { s with run := v }
/-- Write FAULT (R29). -/
def State.setFault (s : State) (v : FaultRecord) : State := { s with fault := v }
/-- Replace RAM's contents (R65). -/
def State.setRam (s : State) (m : Memory) : State := { s with ram := m }

/-- Append one access to what peripheral `device` has received (R66). -/
def State.logAccess (s : State) (device : Nat) (x : Access) : State :=
  { s with deviceLog := { device := device, access := x } :: s.deviceLog }

/-- The cell at a local offset of RAM; an offset nothing has written reads as 0 (R37, R65). -/
def Memory.read : Memory → Nat → RegisterValue
  | [], _ => 0#16
  | (o, v) :: m, off => if off = o then v else Memory.read m off

/-- `ram[off] <- v` (R65), kept in the canonical form: offsets rising, no cell equal to 0. -/
def Memory.write : Memory → Nat → RegisterValue → Memory
  | [], off, v => if v = 0#16 then [] else [(off, v)]
  | (o, w) :: m, off, v =>
    if off < o then (if v = 0#16 then (o, w) :: m else (off, v) :: (o, w) :: m)
    else if off = o then (if v = 0#16 then m else (off, v) :: m)
    else (o, w) :: Memory.write m off v

/-- The canonical form above a bound: every offset at least `lo`, offsets strictly rising, no cell equal to 0. -/
def Memory.wfFrom : Nat → Memory → Bool
  | _, [] => true
  | lo, (o, v) :: m => decide (lo ≤ o) && decide (v ≠ 0#16) && Memory.wfFrom (o + 1) m

/-- The canonical form of RAM's contents. -/
def Memory.wf (m : Memory) : Bool := Memory.wfFrom 0 m

/-- Write a list of cells at consecutive offsets (R265). -/
def Memory.writeAll : Memory → Nat → List RegisterValue → Memory
  | m, _, [] => m
  | m, off, v :: vs => Memory.writeAll (Memory.write m off v) (off + 1) vs

/-- `Resolve(addr)` (R57): the slave of the range that contains the address, with the local offset; none is Unmapped. At most
one range contains an address of a well-formed platform, so the list's order decides nothing (R56). On an ill-formed list, which
no machine has, the first range wins: DESIGN CHOICE, safe (log entry 11). -/
def resolve : List Binding → Address → Option (Slave × Nat)
  | [], _ => none
  | b :: bs, addr =>
    if b.range.contains addr.toNat then some (b.slave, addr.toNat - b.range.start) else resolve bs addr

/-- The accesses a peripheral has received, newest first. -/
def State.history (s : State) (device : Nat) : List Access :=
  (s.deviceLog.filter (fun x => x.device == device)).map (fun x => x.access)

/-- `slave.read(offset)` (R62): the value, or none for the error response (R63), and the state the slave is left in. RAM checks its
capacity and is unchanged (R65); a peripheral answers what it answers and has received the access (R66), also one it rejects:
DEDUCED from R66's signature, safe (log entry 7). -/
def slaveRead (sl : Slave) (off : Nat) (s : State) : Option RegisterValue × State :=
  match sl with
  | .ram => (if off < s.platform.ramCapacity then some (Memory.read s.ram off) else none, s)
  | .peripheral d => (Config.peripheralRead d (s.history d) off, s.logAccess d (.read off))

/-- `slave.write(offset, value)` (R62): whether the slave accepts the offset (R63), and the state it is left in; a write that RAM
rejects changes no cell (R65), a peripheral has received also one it rejects (log entry 7). -/
def slaveWrite (sl : Slave) (off : Nat) (v : RegisterValue) (s : State) : Bool × State :=
  match sl with
  | .ram => if off < s.platform.ramCapacity then (true, s.setRam (Memory.write s.ram off v)) else (false, s)
  | .peripheral d => (Config.peripheralAccepts d (s.history d) off v, s.logAccess d (.write off v))

/-- `MemRead(addr, 1)` (R58): BusFault when unmapped (R60), else the slave's answer, SlaveBoundsFault when it rejects the offset. -/
def memRead (addr : Address) (s : State) : Reply RegisterValue :=
  match resolve s.platform.bindings addr with
  | none => .error .busFault s
  | some (sl, off) =>
    match slaveRead sl off s with
    | (some v, s') => .ok v s'
    | (none, s') => .error .slaveBoundsFault s'

/-- `MemWrite(addr, 1, v)` (R59): the same lookup and the same faults as `memRead`; a faulting write changes no cell (R60). -/
def memWrite (addr : Address) (v : RegisterValue) (s : State) : Reply Unit :=
  match resolve s.platform.bindings addr with
  | none => .error .busFault s
  | some (sl, off) =>
    match slaveWrite sl off v s with
    | (true, s') => .ok () s'
    | (false, s') => .error .slaveBoundsFault s'

/-- The RAM cell that a global address names, without an access: none where no RAM cell is bound (R57, R65). -/
def State.ramCell (s : State) (addr : Address) : Option RegisterValue :=
  match resolve s.platform.bindings addr with
  | some (.ram, off) => if off < s.platform.ramCapacity then some (Memory.read s.ram off) else none
  | _ => none

/-- `raise <Fault>(info)` (R226), the one way a fault is taken: RUN becomes Faulted and FAULT records the kind, IA and OC as
they stand and the address given (0 where R220 says so). Nothing else changes, and there is no handler. -/
def raiseFault (kind : FaultKind) (addr : Address) (s : State) : State :=
  (s.setRun .faulted).setFault { kind := kind, ia := s.ia, oc := s.oc, addr := addr }

/-- `cpu_reset` (R260), the only way out of a fault or a halt besides `systemReset` (R230): RAM, peripherals and bindings stay. -/
def cpuReset (s : State) : State :=
  { s with ia := 0#16, oc := 0#16, arg0 := 0#16, acc := 0#16, stage := .awaitingFetch, run := .running, fault := FaultRecord.clear }

/-- `system_reset` (R261): RAM is cleared, then everything `cpu_reset` does; peripherals are not reset. -/
def systemReset (s : State) : State := cpuReset (s.setRam [])

/-- The end of an execute stage that raised nothing: `STAGE <- AwaitingFetch` (R126). -/
def State.endCycle (s : State) : State := s.setStage .awaitingFetch

/-- An execute stage whose result goes to Acc (R160). -/
def State.finishAcc (s : State) (v : RegisterValue) : State := (s.setAcc v).endCycle

end Sys2Proof.Machine
end

