-- ==== Sys2Proof/Machine/Operands.lean ====
section
/-! DEFINITION. The operand forms of the execute stage (R51, R96): a dereferenced operand read, an operand written; a target is used as it is. -/

namespace Sys2Proof.Machine

/-- The form of Ld, Add, Mul, Div, Eq, Gt, And, Or: `a <- MemRead(Arg0, 1)`, made once and unconditionally (R77, R185), then
`k a` on the state the read leaves; a fault of the read is raised with the operand address and nothing else happens (R226). -/
def withOperand (addr : Address) (s : State) (k : RegisterValue → State → State) : Result :=
  match memRead addr s with
  | .ok a s' => .next (k a s')
  | .error kind s' => .next (raiseFault kind addr s')

/-- The form of St: `MemWrite(Arg0, 1, v)`, then the end of the cycle; a fault of the write is raised with the operand address. -/
def storeOperand (addr : Address) (v : RegisterValue) (s : State) : Result :=
  match memWrite addr v s with
  | .ok _ s' => .next s'.endCycle
  | .error kind s' => .next (raiseFault kind addr s')

end Sys2Proof.Machine
end

