-- ==== Sys2Proof/Machine/Arithmetic.lean ====
section
/-! DEFINITION. The execute stages of Add, Neg, Mul, Div and Sqrt (R161 to R165). -/

namespace Sys2Proof.Machine

/-- R161. -/
def execAdd (addr : Address) (s : State) : Result := withOperand addr s (fun a t => t.finishAcc (aluAdd t.acc a))

/-- R162. -/
def execNeg (s : State) : Result := .next (s.finishAcc (aluNeg s.acc))

/-- R163. -/
def execMul (addr : Address) (s : State) : Result := withOperand addr s (fun a t => t.finishAcc (aluMul t.acc a))

/-- R164: the read comes first (R229), then a zero divisor raises ArithmeticFault, recorded with address 0 (R224).
A peripheral whose cell answered that 0 keeps the completed read (R66, R76), although D22 says that a faulting step changes nothing
but RUN and FAULT: DESIGN CHOICE, unsafe (log entry 17). -/
def execDiv (addr : Address) (s : State) : Result :=
  withOperand addr s (fun a t => if a = 0#16 then raiseFault .arithmeticFault 0#16 t else t.finishAcc (aluDiv t.acc a))

/-- R165: a negative Acc raises ArithmeticFault, recorded with address 0 (R224); no bus access. -/
def execSqrt (s : State) : Result :=
  .next (if s.acc.toInt < 0 then raiseFault .arithmeticFault 0#16 s else s.finishAcc (aluSqrt s.acc))

end Sys2Proof.Machine
end

