-- ==== Sys2Proof/Machine/Flags.lean ====
section
/-! DEFINITION. The machine has no flags (R30): comparisons and logic write a truth value to Acc (R180 to R184), which Jif tests (R201). -/

namespace Sys2Proof.Machine

/-- `B(b)` (R169): exactly 1 for true and exactly 0 for false. -/
def truthValue (b : Bool) : RegisterValue := if b then 1#16 else 0#16

/-- A value counts as true when it is not 0, negative values included. -/
def nonZero (v : RegisterValue) : Bool := decide (v ≠ 0#16)

/-- R180: equality of the two 16-bit values. -/
def aluEq (acc a : RegisterValue) : RegisterValue := truthValue (decide (acc = a))

/-- R181: the signed comparison, exact; Acc is the left operand. -/
def aluGt (acc a : RegisterValue) : RegisterValue := truthValue (decide (acc.toInt > a.toInt))

/-- R182: logical negation. -/
def aluNot (acc : RegisterValue) : RegisterValue := truthValue (!nonZero acc)

/-- R183: logical conjunction. -/
def aluAnd (acc a : RegisterValue) : RegisterValue := truthValue (nonZero acc && nonZero a)

/-- R184: logical disjunction. -/
def aluOr (acc a : RegisterValue) : RegisterValue := truthValue (nonZero acc || nonZero a)

end Sys2Proof.Machine
end

