-- ==== Sys2Proof/Machine/Control.lean ====
section
/-! DEFINITION. The execute stages of Jmp, Jif and Halt (R200 to R202). -/

namespace Sys2Proof.Machine

/-- R200: `IA <- Arg0`, the operand address itself; no bus access, no fault in this stage. -/
def execJmp (target : Address) (s : State) : Result := .next (s.setIa target).endCycle

/-- R201: taken when Acc is not 0, else IA stays after the operand cell; no bus access. -/
def execJif (target : Address) (s : State) : Result :=
  .next (if nonZero s.acc then (s.setIa target).endCycle else s.endCycle)

/-- R202: `RUN <- Halted`, `STAGE <- AwaitingFetch`; FAULT stays None. -/
def execHalt (s : State) : Result := .next (s.setRun .halted).endCycle

end Sys2Proof.Machine
end

