-- ==== Sys2Proof/Machine/LoadStore.lean ====
section
/-! DEFINITION. The execute stages of Noop, Ld and St (R150 to R152). -/

namespace Sys2Proof.Machine

/-- R150: nothing; no bus access. -/
def execNoop (s : State) : Result := .next s.endCycle

/-- R151: `Acc <- a`, the whole cell. -/
def execLd (addr : Address) (s : State) : Result := withOperand addr s (fun a t => t.finishAcc a)

/-- R152: the whole Acc is written to the cell at the operand address; the target cell is not read. -/
def execSt (addr : Address) (s : State) : Result := storeOperand addr s.acc s

end Sys2Proof.Machine
end

