-- ==== Sys2Proof/Machine/Logic.lean ====
section
/-! DEFINITION. The execute stages of Eq, Gt, Not, And and Or (R180 to R185). -/

namespace Sys2Proof.Machine

/-- R180. -/
def execEq (addr : Address) (s : State) : Result := withOperand addr s (fun a t => t.finishAcc (aluEq t.acc a))

/-- R181. -/
def execGt (addr : Address) (s : State) : Result := withOperand addr s (fun a t => t.finishAcc (aluGt t.acc a))

/-- R182; no bus access. -/
def execNot (s : State) : Result := .next (s.finishAcc (aluNot s.acc))

/-- R183; the operand is read even when Acc is 0 (R185). -/
def execAnd (addr : Address) (s : State) : Result := withOperand addr s (fun a t => t.finishAcc (aluAnd t.acc a))

/-- R184; the operand is read even when Acc is not 0 (R185). -/
def execOr (addr : Address) (s : State) : Result := withOperand addr s (fun a t => t.finishAcc (aluOr t.acc a))

end Sys2Proof.Machine
end

