-- ==== Sys2Proof/Machine/Dispatch.lean ====
section
/-! DEFINITION. The execute stage's selection of an instruction rule (R94, R126): one arm for each instruction. -/

namespace Sys2Proof.Machine

def exec (i : Instr) (s : State) : Host.Outcome State Fault Refusal :=
  match i with
  | .noop => Sys2Proof.Machine.execNoop s
  | .ld addr => Sys2Proof.Machine.execLd addr s
  | .st addr => Sys2Proof.Machine.execSt addr s
  | .add addr => Sys2Proof.Machine.execAdd addr s
  | .neg => Sys2Proof.Machine.execNeg s
  | .mul addr => Sys2Proof.Machine.execMul addr s
  | .div addr => Sys2Proof.Machine.execDiv addr s
  | .eq addr => Sys2Proof.Machine.execEq addr s
  | .gt addr => Sys2Proof.Machine.execGt addr s
  | .not => Sys2Proof.Machine.execNot s
  | .and addr => Sys2Proof.Machine.execAnd addr s
  | .or addr => Sys2Proof.Machine.execOr addr s
  | .jmp addr => Sys2Proof.Machine.execJmp addr s
  | .jif addr => Sys2Proof.Machine.execJif addr s
  | .sqrt => Sys2Proof.Machine.execSqrt s
  | .halt => Sys2Proof.Machine.execHalt s

end Sys2Proof.Machine
end

