-- ==== Sys2Proof/Machine/Cycle.lean ====
section
/-! DEFINITION. The four stages of the instruction cycle (R120 to R127), and the state they leave for the execute stage. -/

namespace Sys2Proof.Machine

/-- Stage 1, fetch opcode (R122): the read comes first; if it faults, OC, IA and STAGE keep their values. -/
def fetchOpcodeStage (s : State) : State :=
  match memRead s.ia s with
  | .ok v s' => ((s'.setOc v).setIa (nextAddress s'.ia)).setStage .awaitingDecode
  | .error kind s' => raiseFault kind s.ia s'

/-- Stage 2, decode (R123, R124): no bus access, no register; an illegal opcode raises InvalidInstruction, recorded with address 0. -/
def decodeStage (s : State) : State :=
  match operandCount s.oc with
  | none => raiseFault .invalidInstruction 0#16 s
  | some 0 => s.setStage .awaitingExecute
  | some (_ + 1) => s.setStage .awaitingOperand

/-- Stage 3, fetch operand (R125): the operand cell becomes Arg0 by `toAddr`; the cell it names is not read. -/
def fetchOperandStage (s : State) : State :=
  match memRead s.ia s with
  | .ok v s' => ((s'.setArg0 (toAddr v)).setIa (nextAddress s'.ia)).setStage .awaitingExecute
  | .error kind s' => raiseFault kind s.ia s'

/-- Stage 4, execute (R126): the instruction selected by OC, with the operand address in Arg0. The decode stage lets no illegal
opcode come here; a state that holds one raises InvalidInstruction. DESIGN CHOICE, safe (log entry 8): no run reaches it. -/
def executeStage (s : State) : Result :=
  match instrOf s.oc s.arg0 with
  | some i => exec i s
  | none => .next (raiseFault .invalidInstruction 0#16 s)

/-- The state in which the last stage that decides on the cells `op`, `arg` is next: after fetch, decode and (format A) operand
fetch of them at IA; before the decode stage when `op` is illegal (R122 to R125). -/
def fetched (op arg : RegisterValue) (s : State) : State :=
  match operandCount op with
  | none => ((s.setOc op).setIa (nextAddress s.ia)).setStage .awaitingDecode
  | some 0 => ((s.setOc op).setIa (nextAddress s.ia)).setStage .awaitingExecute
  | some (_ + 1) =>
    (((s.setOc op).setArg0 (toAddr arg)).setIa (nextAddress (nextAddress s.ia))).setStage .awaitingExecute

/-- Put a cell into RAM from outside the machine, where a RAM cell is bound at the address. -/
def placeCell (addr : Address) (v : RegisterValue) (s : State) : State :=
  match resolve s.platform.bindings addr with
  | some (.ram, off) => if off < s.platform.ramCapacity then s.setRam (Memory.write s.ram off v) else s
  | _ => s

/-- The cells `op`, `arg` placed at IA, the machine running with no fault, and the stages before the one that decides done. -/
def placeAndFetch (op arg : RegisterValue) (s : State) : State :=
  fetched op arg (((placeCell (nextAddress s.ia) arg (placeCell s.ia op s)).setRun .running).setFault FaultRecord.clear)

end Sys2Proof.Machine
end

