-- ==== Sys2Proof/Machine/Step.lean ====
section
/-! DEFINITION. One step is one stage (R120, R121); a halted or faulted machine does not move (R128). -/

namespace Sys2Proof.Machine

/-- `STEP` (R128): the stage named by STAGE while RUN is Running, else no change. Every fault is a latched next state (R226). -/
def step (s : State) : Host.Outcome State Fault Refusal :=
  match s.run with
  | .halted => .next s
  | .faulted => .next s
  | .running =>
    match s.stage with
    | .awaitingFetch => .next (fetchOpcodeStage s)
    | .awaitingDecode => .next (decodeStage s)
    | .awaitingOperand => .next (fetchOperandStage s)
    | .awaitingExecute => executeStage s

/-- `s` with the instruction of the table bits `w` placed at IA and its stages before the execute stage done, so that the very
next `step` is the one that executes it (log entry 9). -/
def State.withFetchWord (s : State) (nbits w : Nat) : State :=
  placeAndFetch (tableCells nbits w).1 (tableCells nbits w).2 s

end Sys2Proof.Machine
end

