-- ==== Sys2Proof/Machine/Build.lean ====
section
/-! DEFINITION. Building a machine: a bus made by hand with `attach` (R55, R69) or the VM's layout of RAM and peripherals (R68). -/

namespace Sys2Proof.Machine

/-- Power-on (R263) on a bus built by hand: refused unless the configuration passes its check (R235 (a)). -/
def buildPlatform (p : Platform) : Result :=
  if p.wellFormed then .next (State.powerOn p) else .refused .platformRejected

/-- The bindings of peripherals `device`, `device + 1`, ... of the given sizes, attached contiguously from `base` up (R68). -/
def layoutPeripherals : Nat → Nat → List Nat → List Binding
  | _, _, [] => []
  | base, device, size :: sizes =>
    { range := { start := base, stop := base + size }, slave := .peripheral device } ::
      layoutPeripherals (base + size) (device + 1) sizes

/-- The layout the VM builds (R68): RAM at `[0, ramSize)`, then each peripheral after the previous region, in the order given. -/
def vmLayout (ramSize : Nat) (sizes : List Nat) : Platform :=
  { ramCapacity := ramSize,
    bindings := { range := { start := 0, stop := ramSize }, slave := .ram } :: layoutPeripherals ramSize 0 sizes }

/-- `new(ram_size, peripherals)` (R68): refused when the total exceeds the address space. -/
def buildMachine (ramSize : Nat) (sizes : List Nat) : Result :=
  if ramSize + sizes.sum ≤ addressSpaceSize then buildPlatform (vmLayout ramSize sizes) else .refused .platformRejected

end Sys2Proof.Machine
end

