-- ==== Sys2Proof/Machine/HostPort.lean ====
section
/-! DEFINITION. What the host can do to the block at a stage boundary (R269), and the compositions of `STEP` (R129, R130). -/

namespace Sys2Proof.Machine

/-- `load_program(cells)` (R265, R266): refused in the middle of a cycle or when longer than RAM, else `ram[i] <- wrap16(cells[i])`,
by RAM's local offset on every platform (DEDUCED, safe, log entry 12). -/
def hostLoadProgram (cells : List Int) (s : State) : Result :=
  if s.stage ≠ .awaitingFetch then .refused .loadDuringCycle
  else if cells.length ≤ s.platform.ramCapacity then
    .next (s.setRam (Memory.writeAll s.ram 0 (cells.map wrap16)))
  else .refused .programTooLong

/-- What an inspection read answers to the host. -/
inductive InspectAnswer where
  | value (v : RegisterValue)
  | error (e : Fault)
  deriving DecidableEq, Repr

/-- `vm[addr]` (R70): exactly a CPU's bus read, so a peripheral sees a real access; an error goes to the host and is not
latched in RUN or FAULT. -/
def hostInspect (addr : Address) (s : State) : InspectAnswer × State :=
  match memRead addr s with
  | .ok v s' => (.value v, s')
  | .error kind s' => (.error (if kind = .busFault then .inspectUnmapped addr else .inspectRejected addr), s')

/-- STAGE on the host port (R27). -/
def Stage.code : Stage → BitVec 2
  | .awaitingFetch => 0
  | .awaitingDecode => 1
  | .awaitingOperand => 2
  | .awaitingExecute => 3

/-- RUN on the host port (R28). -/
def RunState.code : RunState → BitVec 2
  | .running => 0
  | .halted => 1
  | .faulted => 2

/-- FAULT.kind on the host port (R220), 3 bits (R29). -/
def FaultKind.code : FaultKind → BitVec 3
  | .none => 0
  | .invalidInstruction => 1
  | .busFault => 2
  | .slaveBoundsFault => 3
  | .arithmeticFault => 4

/-- What the host port presents at a stage boundary (R34). -/
structure Snapshot where
  ia : Address
  oc : RegisterValue
  arg0 : Address
  acc : RegisterValue
  stage : BitVec 2
  run : BitVec 2
  faultKind : BitVec 3
  faultIa : Address
  faultOc : RegisterValue
  faultAddr : Address
  deriving DecidableEq, Repr

/-- The register snapshot (R34); reading it changes no state. -/
def hostSnapshot (s : State) : Snapshot :=
  { ia := s.ia, oc := s.oc, arg0 := s.arg0, acc := s.acc, stage := s.stage.code, run := s.run.code,
    faultKind := s.fault.kind.code, faultIa := s.fault.ia, faultOc := s.fault.oc, faultAddr := s.fault.addr }

/-- The commands of R269 that may change the block. -/
inductive HostCommand where
  | step
  | cpuReset
  | systemReset
  | loadProgram (cells : List Int)
  | inspect (addr : Address)
  deriving DecidableEq, Repr

/-- The state after a host command (R269). -/
def hostCommand (c : HostCommand) (s : State) : Result :=
  match c with
  | .step => Machine.step s
  | .cpuReset => .next (Machine.cpuReset s)
  | .systemReset => .next (Machine.systemReset s)
  | .loadProgram cells => hostLoadProgram cells s
  | .inspect addr => .next (hostInspect addr s).2

/-- At most `n` steps, ending as soon as STAGE is AwaitingFetch again or RUN is not Running. -/
def stepsToBoundary : Nat → State → Result
  | 0, s => .next s
  | n + 1, s =>
    match step s with
    | .next t => if t.stage = .awaitingFetch ∨ t.run ≠ .running then .next t else stepsToBoundary n t
    | .fault r => .fault r
    | .refused r => .refused r

/-- `run_full_cycle()` (R129): `STEP` until STAGE is AwaitingFetch again or RUN is not Running; a cycle has at most four steps
(R120), so four reach it from any stage. -/
def runFullCycle (s : State) : Result := stepsToBoundary 4 s

/-- `run()` (R130) cut off after `n` instruction cycles: it ends earlier when RUN is not Running. -/
def runCycles : Nat → State → Result
  | 0, s => .next s
  | n + 1, s =>
    if s.run ≠ .running then .next s
    else
      match runFullCycle s with
      | .next t => runCycles n t
      | .fault r => .fault r
      | .refused r => .refused r

end Sys2Proof.Machine
end

