-- ==== Sys2Proof/Machine/Ports.lean ====
section
/-! DEFINITION. The ports of R64: the request the next step puts on the master port and its answer, and what each slave port carries. -/

namespace Sys2Proof.Machine

/-- The master port's request: `M_WE`, `M_ADDR`, `M_WDATA` (0 on a read; DESIGN CHOICE, unsafe, log entry 10); it exists exactly
when `M_REQ` is 1 (R64). -/
structure MasterRequest where
  we : Bool
  addr : Address
  wdata : RegisterValue
  deriving DecidableEq, Repr

/-- The master port's answer: `M_RDATA` (0 on a write or an error; DESIGN CHOICE, unsafe, log entry 10) and `M_ERR` (0 ok, 1 unmapped, 2 slave bounds; R64). -/
structure MasterAnswer where
  rdata : RegisterValue
  err : BitVec 2
  deriving DecidableEq, Repr

/-- The access an instruction makes in its execute stage (R51): a read at its operand address, a write of Acc for St, or none. -/
def dataRequest (acc : RegisterValue) : Instr → Option MasterRequest
  | .noop => none
  | .ld addr => some { we := false, addr := addr, wdata := 0#16 }
  | .st addr => some { we := true, addr := addr, wdata := acc }
  | .add addr => some { we := false, addr := addr, wdata := 0#16 }
  | .neg => none
  | .mul addr => some { we := false, addr := addr, wdata := 0#16 }
  | .div addr => some { we := false, addr := addr, wdata := 0#16 }
  | .eq addr => some { we := false, addr := addr, wdata := 0#16 }
  | .gt addr => some { we := false, addr := addr, wdata := 0#16 }
  | .not => none
  | .and addr => some { we := false, addr := addr, wdata := 0#16 }
  | .or addr => some { we := false, addr := addr, wdata := 0#16 }
  | .jmp _ => none
  | .jif _ => none
  | .sqrt => none
  | .halt => none

/-- The request of the next step (R51, R127), at most one (R121): none when the step makes no access or the machine is stopped. -/
def nextRequest (s : State) : Option MasterRequest :=
  match s.run with
  | .halted => none
  | .faulted => none
  | .running =>
    match s.stage with
    | .awaitingFetch => some { we := false, addr := s.ia, wdata := 0#16 }
    | .awaitingDecode => none
    | .awaitingOperand => some { we := false, addr := s.ia, wdata := 0#16 }
    | .awaitingExecute => (instrOf s.oc s.arg0).bind (dataRequest s.acc)

/-- `M_ERR` for a fault of an access (R64). -/
def errorCode : FaultKind → BitVec 2
  | .busFault => 1
  | .slaveBoundsFault => 2
  | .none => 0
  | .invalidInstruction => 0
  | .arithmeticFault => 0

/-- The answer on the master port to a request (R64), and the state the access leaves. -/
def masterAnswer (r : MasterRequest) (s : State) : MasterAnswer × State :=
  if r.we then
    match memWrite r.addr r.wdata s with
    | .ok _ s' => ({ rdata := 0#16, err := 0 }, s')
    | .error kind s' => ({ rdata := 0#16, err := errorCode kind }, s')
  else
    match memRead r.addr s with
    | .ok v s' => ({ rdata := v, err := 0 }, s')
    | .error kind s' => ({ rdata := 0#16, err := errorCode kind }, s')

/-- `S_SEL_i` of binding `b` for a request (R64). -/
def slaveSelected (b : Binding) (r : MasterRequest) : Bool := b.range.contains r.addr.toNat

/-- `S_OFF = M_ADDR - range.start` of a selected binding (R64); less than 65536, so it fits the port's 16 bits. On a binding whose
range starts above the address it is 0: DESIGN CHOICE, unsafe (log entry 10). -/
def slaveOffset (b : Binding) (r : MasterRequest) : BitVec 16 := BitVec.ofNat 16 (r.addr.toNat - b.range.start)

/-- Slave port `i`, router to slave (R64): `S_SEL_i`, `S_WE`, `S_OFF`, `S_WDATA`. -/
structure SlaveRequest where
  sel : Bool
  we : Bool
  off : BitVec 16
  wdata : RegisterValue
  deriving DecidableEq, Repr

/-- Slave port `i`, slave to router (R64): `S_RDATA_i`, and `S_ERR_i` for an offset out of bounds. -/
structure SlaveAnswer where
  rdata : RegisterValue
  err : Bool
  deriving DecidableEq, Repr

/-- What the router puts on the port of binding `b` (R64): `S_WE` is `M_WE` (DEDUCED, safe, log entry 10) and `S_WDATA` is
`M_WDATA`. With `M_REQ = 0` no slave is selected, and the other lines are 0 (DESIGN CHOICE, unsafe, log entry 10). -/
def slaveRequest (b : Binding) (m : Option MasterRequest) : SlaveRequest :=
  match m with
  | none => { sel := false, we := false, off := 0, wdata := 0#16 }
  | some r => { sel := slaveSelected b r, we := r.we, off := slaveOffset b r, wdata := r.wdata }

/-- What a slave answers on its port (R62 to R66), and the state it is left in. A slave that is not selected does nothing; its
`S_RDATA_i`, and that of a write or an error, is 0 (DESIGN CHOICE, unsafe, log entry 10). -/
def slaveAnswer (sl : Slave) (p : SlaveRequest) (s : State) : SlaveAnswer × State :=
  if p.sel then
    if p.we then
      let w := slaveWrite sl p.off.toNat p.wdata s
      ({ rdata := 0#16, err := !w.1 }, w.2)
    else
      let v := slaveRead sl p.off.toNat s
      ({ rdata := v.1.getD 0#16, err := v.1.isNone }, v.2)
  else ({ rdata := 0#16, err := false }, s)

end Sys2Proof.Machine
end

