-- ==== Sys2Proof/Safety.lean ====
section
/-! DEFINITION. The terms claims are stated in: reachability, the ends of a run (R270), and the machine's invariant. -/

namespace Sys2Proof.Machine

/-- `r` is `wrap16(i)` in R7's words: in the range of a RegisterValue and congruent to `i` modulo 65536. -/
def IsWrap16 (i r : Int) : Prop := -32768 ≤ r ∧ r ≤ 32767 ∧ (65536 : Int) ∣ (r - i)

/-- The form of the rules R151, R161, R163, R180, R181, R183 and R184 (format A instructions that read the cell at the operand
address and write Acc): the encoding is `opcode, arg0`; when the read answers `a`, the instruction completes with an Acc that is
the `result` of the old Acc and `a`, and with nothing else changed but STAGE; when the read fails, that fault is raised with the
operand address and Acc is unchanged. `s'` is the state the read leaves: `s`, or `s` after one peripheral access (R58). -/
def LoadingRule (mk : Address → Instr) (opcode : RegisterValue)
    (result : RegisterValue → RegisterValue → RegisterValue → Prop) : Prop :=
  ∀ (s : State) (addr : Address),
    encode (mk addr) = [opcode, addr] ∧
    (∀ a s', memRead addr s = .ok a s' →
      ∃ t, exec (mk addr) s = .next t ∧ result s.acc a t.acc ∧ t = { s' with acc := t.acc, stage := .awaitingFetch }) ∧
    (∀ k s', memRead addr s = .error k s' →
      (k = .busFault ∨ k = .slaveBoundsFault) ∧ s'.acc = s.acc ∧ exec (mk addr) s = .next (raiseFault k addr s'))

/-- `n` steps of the machine take `s` to `t`. -/
def StepsTo : Nat → State → State → Prop
  | 0, s, t => s = t
  | n + 1, s, t => ∃ u, step s = .next u ∧ StepsTo n u t

/-- A run is over at a clean end (R270). -/
def State.cleanEnd (s : State) : Prop := s.run = .halted

/-- A run is over at a faulted end (R270). -/
def State.faultedEnd (s : State) : Prop := s.run = .faulted

/-- What the FAULT record of a latched fault says about the state that raised it (R220 to R224, R226, R228): IA and OC as they
stand, the faulting stage, and the address of the failed access (0 for InvalidInstruction and ArithmeticFault). -/
def faultRecordMatches (s : State) : Prop :=
  s.fault.ia = s.ia ∧ s.fault.oc = s.oc ∧
  match s.fault.kind with
  | .none => False
  | .invalidInstruction => s.stage = .awaitingDecode ∧ operandCount s.oc = none ∧ s.fault.addr = 0#16
  | .arithmeticFault => s.stage = .awaitingExecute ∧ (s.oc = 0x0006#16 ∨ s.oc = opcSqrt) ∧ s.fault.addr = 0#16
  | .busFault => accessStage s
  | .slaveBoundsFault => accessStage s
where
  /-- The stages that make a bus access, with its address. -/
  accessStage (s : State) : Prop :=
    (s.stage = .awaitingFetch ∧ s.fault.addr = s.ia) ∨ (s.stage = .awaitingOperand ∧ s.fault.addr = s.ia) ∨
      (s.stage = .awaitingExecute ∧ s.fault.addr = s.arg0 ∧
        ∃ i, instrOf s.oc s.arg0 = some i ∧ (dataRequest s.acc i).isSome)

/-- What holds of every state the machine can be in: the configuration passed its check; RAM is in canonical form and inside its
capacity; a stage after decode holds a legal opcode (R123); the record is clear unless a fault is latched (R29) and then says what
was raised; a halted machine stands between cycles with Halt in OC (R202). -/
structure State.Inv (s : State) : Prop where
  platform_wf : s.platform.wellFormed = true
  ram_wf : Memory.wf s.ram = true
  ram_bounded : ∀ c ∈ s.ram, c.1 < s.platform.ramCapacity
  operand_stage : s.stage = .awaitingOperand → operandCount s.oc = some 1
  execute_stage : s.stage = .awaitingExecute → (operandCount s.oc).isSome = true
  record_clear : s.run ≠ .faulted → s.fault = FaultRecord.clear
  record_set : s.run = .faulted → faultRecordMatches s
  halted_boundary : s.run = .halted → s.stage = .awaitingFetch ∧ s.oc = 0x00FF#16

end Sys2Proof.Machine
end

