-- ==== Sys2Proof/Certificates/Slice0/Obligations.lean ====
section
/-! DEFINITION. The statements for the provers: what the spec's rules say of the machine. -/

open Sys2Proof Sys2Proof.Machine

/-! ## Values and encoding -/

/-- R7: `wrap16(i)` is the unique integer in the range of a RegisterValue congruent to `i` modulo 65536. -/
def Obligations.WrapIsTheUniqueCongruentRegisterValue : Prop :=
  ∀ i : Int, IsWrap16 i (wrap16 i).toInt ∧ ∀ r : Int, IsWrap16 i r → r = (wrap16 i).toInt

/-- R9 (the conversions are the spec's decision D5): `toAddr(v) = v mod 65536`, `toReg(a) = wrap16(a)`, each keeps the bit
pattern and each undoes the other. -/
def Obligations.AddressAndRegisterValueShareTheirPattern : Prop :=
  (∀ v : RegisterValue, ((toAddr v).toNat : Int) = v.toInt % 65536 ∧ (toAddr v).toNat = v.toNat ∧ toReg (toAddr v) = v) ∧
  (∀ a : Address, IsWrap16 a.toNat (toReg a).toInt ∧ (toReg a).toNat = a.toNat ∧ toAddr (toReg a) = a)

/-- R8, R22 (wrap-around is the spec's decision D6): each fetch advances IA to the next address, and 65535 is followed by 0. -/
def Obligations.NextAddressAddsOneAndWrapsAtTheTop : Prop :=
  ∀ a : Address, (a.toNat < 65535 → (nextAddress a).toNat = a.toNat + 1) ∧ (a.toNat = 65535 → (nextAddress a).toNat = 0)

/-- R104, R95: decoding the cells of an instruction gives it back with every operand bit and leaves the cells after it, and a
list of cells that decodes is the encoding of what it decodes to followed by the rest. -/
def Obligations.DecodeAndEncodeAgree : Prop :=
  (∀ (i : Instr) (rest : List RegisterValue), i.wellFormed = true → decode (encode i ++ rest) = .ok (i, rest)) ∧
  (∀ (cells rest : List RegisterValue) (i : Instr), decode cells = .ok (i, rest) → cells = encode i ++ rest)

/-- R94, R91, R92: the opcode cells of format Z and of format A, each exactly. -/
def Obligations.OperandCountOfEveryOpcodeCell : Prop :=
  ∀ oc : RegisterValue,
    (operandCount oc = some 0 ↔ oc ∈ [0x0000#16, 0x0004#16, 0x0009#16, 0x00E1#16, 0x00FF#16]) ∧
    (operandCount oc = some 1 ↔ oc ∈ [0x0001#16, 0x0002#16, 0x0003#16, 0x0005#16, 0x0006#16, 0x0007#16, 0x0008#16,
      0x000A#16, 0x000B#16, 0x000C#16, 0x000D#16]) ∧
    (∀ n, operandCount oc = some n → n = 0 ∨ n = 1)

/-- R97: the illegal opcode cells are 0x000E to 0x00E0, 0x00E2 to 0x00FE and 0x0100 to 0xFFFF, 65520 values, and the decode stage
raises InvalidInstruction on each and on no other. R123, R220, R226: the fault records IA and OC as they stand, with address 0, and
nothing else changes; that STAGE and all else are kept is the spec's decision D22 (log entry 5). -/
def Obligations.IllegalOpcodeCellsFaultInDecode : Prop :=
  (∀ oc : RegisterValue, operandCount oc = none ↔
    (0x000E ≤ oc.toNat ∧ oc.toNat ≤ 0x00E0) ∨ (0x00E2 ≤ oc.toNat ∧ oc.toNat ≤ 0x00FE) ∨ 0x0100 ≤ oc.toNat) ∧
  ((Finset.univ : Finset (Fin 65536)).filter (fun n => (operandCount (BitVec.ofFin n)).isNone = true)).card = 65520 ∧
  (∀ s : State, s.run = .running → s.stage = .awaitingDecode →
    (operandCount s.oc = none →
      step s = .next { s with run := .faulted, fault := { kind := .invalidInstruction, ia := s.ia, oc := s.oc, addr := 0#16 } }) ∧
    (operandCount s.oc ≠ none → ∃ t, step s = .next t ∧ t.run = .running))

/-- Sanity words written out from R91, R92 and R94: Noop, Ld 5, Add 40000, Not, Jmp 65535, Sqrt, Halt; 0x000E and 0xFFFF are none. -/
def Obligations.WordsOfEachFamilyDecode : Prop :=
  decode [0x0000#16] = .ok (.noop, []) ∧
  decode [0x0001#16, 0x0005#16] = .ok (.ld 5#16, []) ∧
  decode [0x0003#16, 0x9C40#16] = .ok (.add 40000#16, []) ∧
  decode [0x0009#16] = .ok (.not, []) ∧
  decode [0x000C#16, 0xFFFF#16] = .ok (.jmp 65535#16, []) ∧
  decode [0x00E1#16] = .ok (.sqrt, []) ∧
  decode [0x00FF#16] = .ok (.halt, []) ∧
  decode [0x000E#16] = .error (.illegalOpcode 0x000E#16) ∧
  decode [0xFFFF#16] = .error (.illegalOpcode 0xFFFF#16)

/-! ## The execute stages: results, completion and faults -/

/-- R150: Noop is the one cell 0x0000 and changes nothing but STAGE in its execute stage; the whole cycle of a Noop fetched at IA
writes OC <- 0 and advances IA by 1, with Acc and Arg0 unchanged. -/
def Obligations.NoopChangesNothing : Prop :=
  encode .noop = [0x0000#16] ∧
  (∀ s : State, exec .noop s = .next { s with stage := .awaitingFetch }) ∧
  (∀ (s s' : State), s.run = .running → s.stage = .awaitingFetch → memRead s.ia s = .ok 0x0000#16 s' →
    StepsTo 3 s { s' with oc := 0#16, ia := nextAddress s.ia, stage := .awaitingFetch })

/-- R151: `Acc <- a`, the whole cell. -/
def Obligations.LdCopiesTheCellToAcc : Prop :=
  LoadingRule .ld 0x0001#16 (fun _ a r => r = a)

/-- R152: the whole Acc goes to the cell at the operand address and to no other cell, Acc and every other register stay, and the
target cell is not read; a failed write raises its fault with the operand address and changes no cell. That a peripheral's history
(log entry 2) takes in a write that the peripheral rejects is no rule of the spec but the model's choice (log entry 7). The premise on
RAM's form is an invariant (`StepKeepsTheInvariant`). -/
def Obligations.StWritesAccToTheCell : Prop :=
  ∀ (s : State) (addr : Address),
    encode (.st addr) = [0x0002#16, addr] ∧
    (∀ u s', memWrite addr s.acc s = .ok u s' → exec (.st addr) s = .next { s' with stage := .awaitingFetch }) ∧
    (∀ v, Memory.wf s.ram = true → s.ramCell addr = some v →
      ∃ t, exec (.st addr) s = .next t ∧ t = { s with ram := t.ram, stage := .awaitingFetch } ∧
        t.ramCell addr = some s.acc ∧
        ∀ b : Address, resolve s.platform.bindings b ≠ resolve s.platform.bindings addr → t.ramCell b = s.ramCell b) ∧
    (∀ d off, resolve s.platform.bindings addr = some (.peripheral d, off) →
      exec (.st addr) s = .next
        (if Config.peripheralAccepts d (s.history d) off s.acc then
          { s with stage := .awaitingFetch, deviceLog := ⟨d, .write off s.acc⟩ :: s.deviceLog }
        else raiseFault .slaveBoundsFault addr { s with deviceLog := ⟨d, .write off s.acc⟩ :: s.deviceLog })) ∧
    (∀ k s', memWrite addr s.acc s = .error k s' →
      (k = .busFault ∨ k = .slaveBoundsFault) ∧ s'.ram = s.ram ∧ exec (.st addr) s = .next (raiseFault k addr s'))

/-- R161: `Acc <- wrap16(Acc + a)`. -/
def Obligations.AddWritesTheWrappedSum : Prop :=
  LoadingRule .add 0x0003#16 (fun acc a r => IsWrap16 (acc.toInt + a.toInt) r.toInt)

/-- R162: `Acc <- wrap16(-Acc)`; no bus access, Arg0 neither read nor written. -/
def Obligations.NegWritesTheWrappedNegation : Prop :=
  encode .neg = [0x0004#16] ∧
  ∀ s : State, ∃ t, exec .neg s = .next t ∧ IsWrap16 (-s.acc.toInt) t.acc.toInt ∧
    t = { s with acc := t.acc, stage := .awaitingFetch }

/-- R163: `Acc <- wrap16(Acc * a)`, the signed product. -/
def Obligations.MulWritesTheWrappedProduct : Prop :=
  LoadingRule .mul 0x0005#16 (fun acc a r => IsWrap16 (acc.toInt * a.toInt) r.toInt)

/-- R164 (the fault on a zero divisor is the spec's decision D13, the wrap of -32768 / -1 its decision D14): for a divisor that
is not 0, Acc becomes `wrap16` of the quotient of magnitude `floor(|Acc| / |a|)`, negative exactly when the signs differ and it is
not 0; for a divisor 0, whatever Acc is, ArithmeticFault is raised after the read and Acc is unchanged; a failed read raises its
own fault instead (R229). That the read of a zero divisor stays made, in a peripheral's history, is the model's choice (log entry 17). -/
def Obligations.DivTruncatesTowardZeroAndFaultsOnZero : Prop :=
  ∀ (s : State) (addr : Address),
    encode (.div addr) = [0x0006#16, addr] ∧
    (∀ a s', memRead addr s = .ok a s' → a ≠ 0#16 →
      ∃ t, ∃ q : Int, exec (.div addr) s = .next t ∧
        q.natAbs = s.acc.toInt.natAbs / a.toInt.natAbs ∧
        (q < 0 ↔ q ≠ 0 ∧ ((s.acc.toInt < 0 ∧ 0 < a.toInt) ∨ (0 < s.acc.toInt ∧ a.toInt < 0))) ∧
        IsWrap16 q t.acc.toInt ∧ t = { s' with acc := t.acc, stage := .awaitingFetch }) ∧
    (∀ s', memRead addr s = .ok 0#16 s' →
      s'.acc = s.acc ∧ exec (.div addr) s = .next (raiseFault .arithmeticFault 0#16 s')) ∧
    (∀ k s', memRead addr s = .error k s' →
      (k = .busFault ∨ k = .slaveBoundsFault) ∧ s'.acc = s.acc ∧ exec (.div addr) s = .next (raiseFault k addr s'))

/-- R165 (the fault is the spec's decision D13): for an Acc not negative the result is the largest `r` with `r*r <= Acc`, in 0 to
181; a negative Acc raises ArithmeticFault and stays. No bus access; Arg0 neither read nor written. -/
def Obligations.SqrtWritesTheIntegerSquareRoot : Prop :=
  encode .sqrt = [0x00E1#16] ∧
  (∀ s : State, 0 ≤ s.acc.toInt →
    ∃ t, exec .sqrt s = .next t ∧ 0 ≤ t.acc.toInt ∧ t.acc.toInt ≤ 181 ∧ t.acc.toInt * t.acc.toInt ≤ s.acc.toInt ∧
      s.acc.toInt < (t.acc.toInt + 1) * (t.acc.toInt + 1) ∧ t = { s with acc := t.acc, stage := .awaitingFetch }) ∧
  (∀ s : State, s.acc.toInt < 0 → exec .sqrt s = .next (raiseFault .arithmeticFault 0#16 s))

/-- R180: exactly 1 when the two values are equal, else exactly 0. -/
def Obligations.EqWritesOneWhenEqual : Prop :=
  LoadingRule .eq 0x0007#16 (fun acc a r => (acc.toInt = a.toInt → r = 1#16) ∧ (acc.toInt ≠ a.toInt → r = 0#16))

/-- R181 (signed, derived there from R6): exactly 1 when Acc is strictly greater than the operand as integers, else exactly 0. -/
def Obligations.GtComparesSignedValues : Prop :=
  LoadingRule .gt 0x0008#16 (fun acc a r => (acc.toInt > a.toInt → r = 1#16) ∧ (¬ acc.toInt > a.toInt → r = 0#16))

/-- R182: logical negation, no bus access, Arg0 neither read nor written. -/
def Obligations.NotIsLogicalNegation : Prop :=
  encode .not = [0x0009#16] ∧
  ∀ s : State,
    (s.acc = 0#16 → exec .not s = .next { s with acc := 1#16, stage := .awaitingFetch }) ∧
    (s.acc ≠ 0#16 → exec .not s = .next { s with acc := 0#16, stage := .awaitingFetch })

/-- R183: logical conjunction; the operand is read also when Acc is 0 (the spec's decision D20, R185). -/
def Obligations.AndIsLogicalConjunction : Prop :=
  LoadingRule .and 0x000A#16
    (fun acc a r => (acc ≠ 0#16 ∧ a ≠ 0#16 → r = 1#16) ∧ (¬ (acc ≠ 0#16 ∧ a ≠ 0#16) → r = 0#16))

/-- R184: logical disjunction; the operand is read also when Acc is not 0 (the spec's decision D20, R185). -/
def Obligations.OrIsLogicalDisjunction : Prop :=
  LoadingRule .or 0x000B#16
    (fun acc a r => (acc ≠ 0#16 ∨ a ≠ 0#16 → r = 1#16) ∧ (¬ (acc ≠ 0#16 ∨ a ≠ 0#16) → r = 0#16))

/-- R200: `IA <- Arg0`, the operand address itself; no bus access, no fault, Acc unchanged. -/
def Obligations.JmpSetsIaToTheOperandAddress : Prop :=
  ∀ (s : State) (addr : Address),
    encode (.jmp addr) = [0x000C#16, addr] ∧ exec (.jmp addr) s = .next { s with ia := addr, stage := .awaitingFetch }

/-- R201: taken for every Acc that is not 0, else IA keeps the address after the operand cell; Acc is not changed. -/
def Obligations.JifJumpsExactlyWhenAccIsNotZero : Prop :=
  ∀ (s : State) (addr : Address),
    encode (.jif addr) = [0x000D#16, addr] ∧
    (s.acc ≠ 0#16 → exec (.jif addr) s = .next { s with ia := addr, stage := .awaitingFetch }) ∧
    (s.acc = 0#16 → exec (.jif addr) s = .next { s with stage := .awaitingFetch })

/-- R202: Halt is the whole cell 0x00FF alone; RUN becomes Halted, STAGE AwaitingFetch, FAULT and everything else stay; after a
Halt fetched at IA the machine stands with IA just past the opcode cell and OC = 0x00FF. -/
def Obligations.HaltStopsTheMachineCleanly : Prop :=
  encode .halt = [0x00FF#16] ∧
  (∀ oc arg : RegisterValue, instrOf oc arg = some .halt ↔ oc = 0x00FF#16) ∧
  (∀ s : State, exec .halt s = .next { s with run := .halted, stage := .awaitingFetch }) ∧
  (∀ (s s' : State), s.run = .running → s.stage = .awaitingFetch → memRead s.ia s = .ok 0x00FF#16 s' →
    StepsTo 3 s { s' with oc := 0x00FF#16, ia := nextAddress s.ia, run := .halted, stage := .awaitingFetch })

/-! ## Frames -/

/-- R26: Noop, Neg, Not, Sqrt, Jmp, Jif and Halt, which make no bus access in their execute stage, leave OC, Arg0, the platform,
every RAM cell and every peripheral alone; Acc is left alone by Noop, Jmp, Jif and Halt, and IA by Noop, Neg, Not, Sqrt and Halt;
RUN is left alone by all but Halt and a Sqrt of a negative Acc, and FAULT by all but the latter. -/
def Obligations.InstructionsWithoutAccessFrame : Prop :=
  ∀ (i : Instr) (s t : State),
    (i = .noop ∨ i = .neg ∨ i = .not ∨ i = .sqrt ∨ i = .halt ∨ ∃ a, i = .jmp a ∨ i = .jif a) →
    exec i s = .next t →
    t.oc = s.oc ∧ t.arg0 = s.arg0 ∧ t.platform = s.platform ∧ t.deviceLog = s.deviceLog ∧
    (∀ b : Address, t.ramCell b = s.ramCell b) ∧
    ((i = .noop ∨ i = .halt ∨ ∃ a, i = .jmp a ∨ i = .jif a) → t.acc = s.acc) ∧
    ((i = .noop ∨ i = .neg ∨ i = .not ∨ i = .sqrt ∨ i = .halt) → t.ia = s.ia) ∧
    (i ≠ .sqrt ∨ 0 ≤ s.acc.toInt → t.fault = s.fault ∧ t.stage = .awaitingFetch ∧ (i ≠ .halt → t.run = s.run))

/-- R26: Ld, Add, Mul, Div, Eq, Gt, And and Or leave IA, OC, Arg0, the platform and every RAM cell alone, change Acc only when they
complete, and touch no peripheral but the one their operand address resolves to, with one read. -/
def Obligations.LoadingInstructionsFrame : Prop :=
  ∀ (i : Instr) (addr : Address) (s t : State),
    (i = .ld addr ∨ i = .add addr ∨ i = .mul addr ∨ i = .div addr ∨ i = .eq addr ∨ i = .gt addr ∨ i = .and addr ∨
      i = .or addr) →
    exec i s = .next t →
    t.ia = s.ia ∧ t.oc = s.oc ∧ t.arg0 = s.arg0 ∧ t.platform = s.platform ∧
    (∀ b : Address, t.ramCell b = s.ramCell b) ∧
    ((t.stage = .awaitingFetch ∧ t.run = s.run ∧ t.fault = s.fault) ∨
      (t.stage = s.stage ∧ t.run = .faulted ∧ t.acc = s.acc)) ∧
    (t.deviceLog = s.deviceLog ∨
      ∃ d off, resolve s.platform.bindings addr = some (.peripheral d, off) ∧
        t.deviceLog = ⟨d, .read off⟩ :: s.deviceLog)

/-- R26, R59, R61: St leaves every register and the platform alone; a RAM cell changes only if it is the one cell its operand
address resolves to, and none when the address resolves to a peripheral or to nothing; a peripheral receives at most that one
write. -/
def Obligations.StFrame : Prop :=
  ∀ (addr : Address) (s t : State), exec (.st addr) s = .next t →
    t.ia = s.ia ∧ t.oc = s.oc ∧ t.arg0 = s.arg0 ∧ t.acc = s.acc ∧ t.platform = s.platform ∧
    (∀ b : Address, resolve s.platform.bindings b ≠ resolve s.platform.bindings addr → t.ramCell b = s.ramCell b) ∧
    ((∀ off, resolve s.platform.bindings addr ≠ some (.ram, off)) → ∀ b : Address, t.ramCell b = s.ramCell b) ∧
    ((t.stage = .awaitingFetch ∧ t.run = s.run ∧ t.fault = s.fault) ∨
      (t.stage = s.stage ∧ t.run = .faulted ∧ t.ram = s.ram)) ∧
    (t.deviceLog = s.deviceLog ∨
      ∃ d off, resolve s.platform.bindings addr = some (.peripheral d, off) ∧
        t.deviceLog = ⟨d, .write off s.acc⟩ :: s.deviceLog)

/-! ## The instruction cycle -/

/-- R122: fetch opcode. -/
def Obligations.FetchOpcodeStageReadsThenAdvances : Prop :=
  ∀ s : State, s.run = .running → s.stage = .awaitingFetch →
    (∀ v s', memRead s.ia s = .ok v s' →
      step s = .next { s' with oc := v, ia := nextAddress s.ia, stage := .awaitingDecode } ∧
        s'.acc = s.acc ∧ s'.arg0 = s.arg0) ∧
    (∀ k s', memRead s.ia s = .error k s' →
      (k = .busFault ∨ k = .slaveBoundsFault) ∧ step s = .next (raiseFault k s.ia s') ∧
        s'.oc = s.oc ∧ s'.ia = s.ia ∧ s'.stage = .awaitingFetch)

/-- R123, R124: decode makes no bus access and writes no register; an operand is awaited exactly when the opcode takes one. -/
def Obligations.DecodeStageChoosesTheNextStage : Prop :=
  ∀ s : State, s.run = .running → s.stage = .awaitingDecode →
    (operandCount s.oc = none → step s = .next (raiseFault .invalidInstruction 0#16 s)) ∧
    (∀ n, operandCount s.oc = some n → 0 < n → step s = .next { s with stage := .awaitingOperand }) ∧
    (operandCount s.oc = some 0 → step s = .next { s with stage := .awaitingExecute })

/-- R125: fetch operand; the operand cell's pattern is the operand address, and the cell it names is not read. -/
def Obligations.FetchOperandStageLoadsArg0 : Prop :=
  ∀ s : State, s.run = .running → s.stage = .awaitingOperand →
    (∀ v s', memRead s.ia s = .ok v s' →
      step s = .next { s' with arg0 := toAddr v, ia := nextAddress s.ia, stage := .awaitingExecute }) ∧
    (∀ k s', memRead s.ia s = .error k s' →
      (k = .busFault ∨ k = .slaveBoundsFault) ∧ step s = .next (raiseFault k s.ia s') ∧
        s'.arg0 = s.arg0 ∧ s'.ia = s.ia ∧ s'.stage = .awaitingOperand)

/-- R126, R120: the execute stage runs the decoded instruction. When OC and Arg0 stand for `i`, the step is `exec i`. When the RAM
cells at IA decode to `i`, the machine between cycles reaches, in 2 steps (format Z) or 3 steps (format A), the state with OC,
Arg0 and IA as the fetch stages leave them, and its next step is `exec i` of that state. -/
def Obligations.StepRunsTheDecodedInstruction : Prop :=
  (∀ (s : State) (i : Instr), s.run = .running → s.stage = .awaitingExecute → instrOf s.oc s.arg0 = some i →
    step s = exec i s) ∧
  (∀ (s : State) (i : Instr) (c : RegisterValue), s.run = .running → s.stage = .awaitingFetch →
    s.ramCell s.ia = some c → decode [c] = .ok (i, []) →
    ∃ u, u = { s with oc := c, ia := nextAddress s.ia, stage := .awaitingExecute } ∧ StepsTo 2 s u ∧ step u = exec i u) ∧
  (∀ (s : State) (i : Instr) (c a : RegisterValue), s.run = .running → s.stage = .awaitingFetch →
    s.ramCell s.ia = some c → s.ramCell (nextAddress s.ia) = some a → decode [c] = .error (.missingOperand c) →
    decode [c, a] = .ok (i, []) →
    ∃ u, u = { s with oc := c, arg0 := toAddr a, ia := nextAddress (nextAddress s.ia), stage := .awaitingExecute } ∧
      StepsTo 3 s u ∧ step u = exec i u)

/-- R128 (the spec's decision D24): `STEP` changes nothing in a halted or faulted machine, however often it is issued. -/
def Obligations.StoppedMachineDoesNotMove : Prop :=
  ∀ (s : State) (n : Nat), s.run ≠ .running → StepsTo n s s ∧ ∀ t, StepsTo n s t → t = s

/-- R135, R226 (derived): every step of every state ends in a next state; no step ends outside the machine. -/
def Obligations.EveryStepAnswersANextState : Prop :=
  ∀ s : State, ∃ t, step s = .next t ∧ ∀ t', step s = .next t' → t' = t

/-- R127 (that STAGE is held on a fault is the spec's decision D22): the stage after a step. -/
def Obligations.StageTransitionTable : Prop :=
  ∀ s t : State, s.run = .running → step s = .next t →
    (t.run = .faulted → t.stage = s.stage) ∧
    (t.run ≠ .faulted →
      (s.stage = .awaitingFetch → t.stage = .awaitingDecode) ∧
      (s.stage = .awaitingDecode →
        (operandCount s.oc = some 1 ∧ t.stage = .awaitingOperand) ∨ (operandCount s.oc = some 0 ∧ t.stage = .awaitingExecute)) ∧
      (s.stage = .awaitingOperand → t.stage = .awaitingExecute) ∧
      (s.stage = .awaitingExecute → t.stage = .awaitingFetch))

/-- R226 (no partial effect is the spec's decision D22): a step that raises a fault changes no register, no STAGE, no RAM cell and
not the platform; RUN becomes Faulted, and FAULT records a kind with IA and OC as they stand. A peripheral has received at most the
one access of `nextRequest`: that it has received it at all, when it rejects it or answers Div a zero, is the model's choice (log
entries 7 and 17). -/
def Obligations.FaultLeavesRegistersStageRamAndPlatform : Prop :=
  ∀ s t : State, s.run = .running → step s = .next t → t.run = .faulted →
    t.ia = s.ia ∧ t.oc = s.oc ∧ t.arg0 = s.arg0 ∧ t.acc = s.acc ∧ t.stage = s.stage ∧ t.ram = s.ram ∧
    t.platform = s.platform ∧ t.fault.kind ≠ .none ∧ t.fault.ia = s.ia ∧ t.fault.oc = s.oc ∧
    (t.deviceLog = s.deviceLog ∨
      ∃ r d off, nextRequest s = some r ∧ resolve s.platform.bindings r.addr = some (.peripheral d, off) ∧
        t.deviceLog = ⟨d, if r.we then .write off r.wdata else .read off⟩ :: s.deviceLog)

/-- R228, R220: which fault can be raised in which stage by which opcode, with the address recorded. The last case, an illegal
opcode before an execute stage, is no rule of the spec but the model's own choice for states no run reaches (log entry 8). -/
def Obligations.FaultTable : Prop :=
  ∀ s t : State, s.run = .running → step s = .next t → t.run = .faulted →
    (s.stage = .awaitingFetch ∧ (t.fault.kind = .busFault ∨ t.fault.kind = .slaveBoundsFault) ∧ t.fault.addr = s.ia) ∨
    (s.stage = .awaitingDecode ∧ t.fault.kind = .invalidInstruction ∧ operandCount s.oc = none ∧ t.fault.addr = 0#16) ∨
    (s.stage = .awaitingOperand ∧ (t.fault.kind = .busFault ∨ t.fault.kind = .slaveBoundsFault) ∧ t.fault.addr = s.ia) ∨
    (s.stage = .awaitingExecute ∧
      (((t.fault.kind = .busFault ∨ t.fault.kind = .slaveBoundsFault) ∧ t.fault.addr = s.arg0 ∧
          s.oc ∈ [0x0001#16, 0x0002#16, 0x0003#16, 0x0005#16, 0x0006#16, 0x0007#16, 0x0008#16, 0x000A#16, 0x000B#16]) ∨
       (t.fault.kind = .arithmeticFault ∧ t.fault.addr = 0#16 ∧
          ((s.oc = 0x0006#16 ∧ ∃ s', memRead s.arg0 s = .ok 0#16 s') ∨ (s.oc = 0x00E1#16 ∧ s.acc.toInt < 0))) ∨
       (t.fault.kind = .invalidInstruction ∧ operandCount s.oc = none)))

/-- R129, R120: `run_full_cycle()` from any stage of a running machine ends after at least one and at most four steps, at the first
state that is between cycles or stopped. -/
def Obligations.FullCycleEndsAtABoundary : Prop :=
  ∀ s : State, s.run = .running →
    ∃ n t, 1 ≤ n ∧ n ≤ 4 ∧ runFullCycle s = .next t ∧ StepsTo n s t ∧ (t.stage = .awaitingFetch ∨ t.run ≠ .running) ∧
      ∀ m u, 1 ≤ m → m < n → StepsTo m s u → u.stage ≠ .awaitingFetch ∧ u.run = .running

/-- R130, R270: `run()` cut off after `n` cycles is a sequence of steps; it stands at a clean end, at a faulted end, or between
cycles; once it has ended, more cycles change nothing. -/
def Obligations.RunEndsCleanlyFaultedOrGoesOn : Prop :=
  ∀ (n : Nat) (s : State), ∃ k t, runCycles n s = .next t ∧ StepsTo k s t ∧
    (t.cleanEnd ∨ t.faultedEnd ∨ (t.run = .running ∧ (n = 0 ∨ t.stage = .awaitingFetch))) ∧
    (t.cleanEnd ∨ t.faultedEnd → ∀ m, n ≤ m → runCycles m s = .next t)

/-- R21, R23, R24, R25, R28: each register is written only by its writers. OC only by the fetch-opcode stage; Arg0 only by the
fetch-operand stage; IA only by the two fetch stages, Jmp and a taken Jif; Acc only by the execute stages of Ld, Add, Neg, Mul, Div,
Eq, Gt, Not, And, Or, Sqrt; RUN becomes Halted only by Halt; the platform by nothing. -/
def Obligations.RegistersAreWrittenOnlyByTheirWriters : Prop :=
  ∀ s t : State, step s = .next t →
    (t.oc ≠ s.oc → s.stage = .awaitingFetch) ∧
    (t.arg0 ≠ s.arg0 → s.stage = .awaitingOperand) ∧
    (t.ia ≠ s.ia → s.stage = .awaitingFetch ∨ s.stage = .awaitingOperand ∨
      (s.stage = .awaitingExecute ∧ t.ia = s.arg0 ∧ (s.oc = 0x000C#16 ∨ (s.oc = 0x000D#16 ∧ s.acc ≠ 0#16)))) ∧
    (t.acc ≠ s.acc → s.stage = .awaitingExecute ∧ s.oc ∈ [0x0001#16, 0x0003#16, 0x0004#16, 0x0005#16, 0x0006#16, 0x0007#16,
      0x0008#16, 0x0009#16, 0x000A#16, 0x000B#16, 0x00E1#16]) ∧
    (t.run = .halted → s.run = .halted ∨ (s.stage = .awaitingExecute ∧ s.oc = 0x00FF#16)) ∧
    t.platform = s.platform

/-- R51, R77, R121: a step makes exactly the access of `nextRequest`: RAM and the peripherals are after the step as that one
access leaves them, and untouched when there is none. That this holds of a peripheral (through the model's history, log entry 2) also
in a faulting step is the model's choice (log entries 7 and 17). -/
def Obligations.StepMakesExactlyItsOneAccess : Prop :=
  ∀ s t : State, step s = .next t →
    match nextRequest s with
    | none => t.ram = s.ram ∧ t.deviceLog = s.deviceLog
    | some r => t.ram = (masterAnswer r s).2.ram ∧ t.deviceLog = (masterAnswer r s).2.deviceLog

/-- R21, R31 (derived): a program cannot observe IA, and a running machine's FAULT record plays no part: with another IA and another
record, an execute stage leaves the same Acc, Arg0, OC, RAM and peripherals, and faults or not alike. -/
def Obligations.ExecuteIgnoresIaAndFaultRecord : Prop :=
  ∀ (i : Instr) (s t t' : State) (x : Address) (f : FaultRecord),
    exec i s = .next t → exec i { s with ia := x, fault := f } = .next t' →
    t'.acc = t.acc ∧ t'.arg0 = t.arg0 ∧ t'.oc = t.oc ∧ t'.ram = t.ram ∧ t'.deviceLog = t.deviceLog ∧
    t'.stage = t.stage ∧ t'.run = t.run

/-! ## The bus and the address map -/

/-- R57, R56: on a well-formed platform, resolution finds the one binding whose range contains the address, with the offset from
its start, and finds none exactly when no range contains it. -/
def Obligations.ResolveFindsTheOneRange : Prop :=
  ∀ (p : Platform) (addr : Address), p.wellFormed = true →
    (∀ b ∈ p.bindings, b.range.start ≤ addr.toNat → addr.toNat < b.range.stop →
      resolve p.bindings addr = some (b.slave, addr.toNat - b.range.start)) ∧
    (resolve p.bindings addr = none ↔ ∀ b ∈ p.bindings, ¬ (b.range.start ≤ addr.toNat ∧ addr.toNat < b.range.stop))

/-- R56, R64: on a well-formed platform the order of the bindings plays no part, and at most one slave select is 1. -/
def Obligations.AtMostOneSlaveIsSelected : Prop :=
  ∀ (p : Platform) (r : MasterRequest), p.wellFormed = true →
    (p.bindings.filter (fun b => slaveSelected b r)).length ≤ 1 ∧
    (∀ bs : List Binding, bs.Perm p.bindings → resolve bs r.addr = resolve p.bindings r.addr) ∧
    (∀ b ∈ p.bindings, slaveSelected b r = true → (slaveOffset b r).toNat = r.addr.toNat - b.range.start)

/-- What slave port `i` carries (R64, R56, R62): no slave is selected without a request; the selected slave sees the write enable,
the value and the local offset, and its answer is the master port's: `M_RDATA = S_RDATA_i`, `M_ERR = 2` when `S_ERR_i` is 1 and
0 otherwise; when no slave is selected `M_ERR` is 1 and no slave changes; a slave that is not selected does nothing. That `M_RDATA`
equals `S_RDATA_i` on a write and on an error too is the model's choice (log entry 10), as is that `S_WE` is `M_WE`. -/
def Obligations.SlavePortAnswersTheMasterPort : Prop :=
  ∀ (s : State) (r : MasterRequest), s.platform.wellFormed = true →
    (∀ b : Binding, (slaveRequest b none).sel = false) ∧
    (∀ b ∈ s.platform.bindings, (slaveRequest b (some r)).sel = true →
      (slaveRequest b (some r)).we = r.we ∧ (slaveRequest b (some r)).wdata = r.wdata ∧
      b.range.start + (slaveRequest b (some r)).off.toNat = r.addr.toNat ∧
      ∃ a s', slaveAnswer b.slave (slaveRequest b (some r)) s = (a, s') ∧
        masterAnswer r s = ({ rdata := a.rdata, err := if a.err then 2 else 0 }, s')) ∧
    ((∀ b ∈ s.platform.bindings, (slaveRequest b (some r)).sel = false) →
      (masterAnswer r s).1.err = 1 ∧ (masterAnswer r s).2 = s) ∧
    (∀ (sl : Slave) (p : SlaveRequest), p.sel = false → (slaveAnswer sl p s).2 = s)

/-- R58, R60, R65, R66: a bus read. Unmapped is a BusFault and touches no slave; RAM answers the cell, without any change, when the
offset is inside its capacity and rejects it otherwise; a peripheral receives exactly this read, no other does, and what it answers
(a value, or a rejected offset) is not said. That its history (log entry 2) takes in a read that it rejects is the model's choice (log
entry 7). -/
def Obligations.BusReadRule : Prop :=
  ∀ (s : State) (addr : Address),
    (resolve s.platform.bindings addr = none → memRead addr s = .error .busFault s) ∧
    (∀ off, resolve s.platform.bindings addr = some (.ram, off) →
      (off < s.platform.ramCapacity → memRead addr s = .ok (Memory.read s.ram off) s) ∧
      (s.platform.ramCapacity ≤ off → memRead addr s = .error .slaveBoundsFault s)) ∧
    (∀ d off, resolve s.platform.bindings addr = some (.peripheral d, off) →
      ∃ s', s' = { s with deviceLog := ⟨d, .read off⟩ :: s.deviceLog } ∧
        s'.history d = .read off :: s.history d ∧ (∀ e, e ≠ d → s'.history e = s.history e) ∧
        memRead addr s =
          match Config.peripheralRead d (s.history d) off with
          | some v => .ok v s'
          | none => .error .slaveBoundsFault s')

/-- R59, R60, R61, R65: a bus write reaches exactly one slave: RAM changes in the one cell addressed and no peripheral sees it, or
one peripheral receives the write and no RAM cell and no other peripheral is touched; an unmapped write changes no state at all.
That the peripheral's history (log entry 2) takes in a write that it rejects is the model's choice (log entry 7). -/
def Obligations.BusWriteReachesOneSlave : Prop :=
  ∀ (s : State) (addr : Address) (v : RegisterValue), Memory.wf s.ram = true →
    (resolve s.platform.bindings addr = none → memWrite addr v s = .error .busFault s) ∧
    (∀ off, resolve s.platform.bindings addr = some (.ram, off) →
      (off < s.platform.ramCapacity →
        ∃ m, memWrite addr v s = .ok () { s with ram := m } ∧ Memory.read m off = v ∧
          ∀ o, o ≠ off → Memory.read m o = Memory.read s.ram o) ∧
      (s.platform.ramCapacity ≤ off → memWrite addr v s = .error .slaveBoundsFault s)) ∧
    (∀ d off, resolve s.platform.bindings addr = some (.peripheral d, off) →
      ∃ s', s'.ram = s.ram ∧ s'.history d = .write off v :: s.history d ∧ (∀ e, e ≠ d → s'.history e = s.history e) ∧
        memWrite addr v s =
          if Config.peripheralAccepts d (s.history d) off v then .ok () s' else .error .slaveBoundsFault s')

/-- R65, R78: a read of an address gives the value most recently written to it, when it is a RAM address, and a RAM address that
resolves elsewhere reads as before. -/
def Obligations.ReadAfterWriteGivesTheValueWritten : Prop :=
  ∀ (s s' : State) (a b : Address) (v : RegisterValue) (u : Unit),
    Memory.wf s.ram = true → (s.ramCell a).isSome = true → memWrite a v s = .ok u s' →
    memRead a s' = .ok v s' ∧
    (resolve s.platform.bindings b ≠ resolve s.platform.bindings a → s'.ramCell b = s.ramCell b)

/-- R80: a store is seen by the next fetch: after a St to the address the next cycle fetches from, the opcode fetched is the value
stored. -/
def Obligations.StoreIsSeenByTheNextFetch : Prop :=
  ∀ s t : State, Memory.wf s.ram = true → s.run = .running → s.stage = .awaitingExecute → s.oc = 0x0002#16 →
    s.arg0 = s.ia → (s.ramCell s.ia).isSome = true → step s = .next t →
    step t = .next { t with oc := s.acc, ia := nextAddress s.ia, stage := .awaitingDecode }

/-- R68: the layout the VM builds. RAM at `[0, RAM_SIZE)`, peripheral `i` at `[base_i, base_i + size_i)` with `base_i` the sum of
RAM_SIZE and the sizes before it, every address from the end of the last region unmapped; a total above 65536 is refused, any
other builds a machine at power-on whose platform passes the configuration check. -/
def Obligations.VmLayoutPlacesRamThenPeripherals : Prop :=
  ∀ (ramSize : Nat) (sizes : List Nat),
    (65536 < ramSize + sizes.sum → buildMachine ramSize sizes = .refused .platformRejected) ∧
    (ramSize + sizes.sum ≤ 65536 →
      (vmLayout ramSize sizes).wellFormed = true ∧
      buildMachine ramSize sizes = .next (State.powerOn (vmLayout ramSize sizes)) ∧
      ∀ addr : Address,
        (addr.toNat < ramSize → resolve (vmLayout ramSize sizes).bindings addr = some (.ram, addr.toNat)) ∧
        (∀ i : Nat, ∀ size, sizes[i]? = some size →
          ramSize + (sizes.take i).sum ≤ addr.toNat → addr.toNat < ramSize + (sizes.take i).sum + size →
          resolve (vmLayout ramSize sizes).bindings addr =
            some (.peripheral i, addr.toNat - (ramSize + (sizes.take i).sum))) ∧
        (ramSize + sizes.sum ≤ addr.toNat → resolve (vmLayout ramSize sizes).bindings addr = none))

/-- R63, R223 (derived): in the VM's layout RAM's range has exactly RAM's capacity, so every access that resolves to RAM is answered:
RAM never gives the bounds error there. -/
def Obligations.RamAlwaysAnswersInTheVmLayout : Prop :=
  ∀ (s : State) (ramSize : Nat) (sizes : List Nat) (addr : Address) (off : Nat) (v : RegisterValue),
    s.platform = vmLayout ramSize sizes → resolve s.platform.bindings addr = some (.ram, off) →
    off = addr.toNat ∧ addr.toNat < ramSize ∧ memRead addr s = .ok (Memory.read s.ram addr.toNat) s ∧
    ∃ t, memWrite addr v s = .ok () t

/-! ## Reset and the host port -/

/-- R36: every register, STAGE, RUN, FAULT and every RAM cell right after reset, on every platform; the power-on values are the
spec's decision D15, and `State.reset` takes the platform of log entry 3 (RAM in all 65536 addresses), the model's choice. -/
def Obligations.ResetLeavesEveryRegisterAndCellZero : Prop :=
  State.reset = State.powerOn Config.defaultPlatform ∧
  (∀ addr : Address, State.reset.ramCell addr = some 0#16) ∧
  ∀ p : Platform,
    (State.powerOn p).ia = 0#16 ∧ (State.powerOn p).oc = 0#16 ∧ (State.powerOn p).arg0 = 0#16 ∧ (State.powerOn p).acc = 0#16 ∧
    (State.powerOn p).stage = .awaitingFetch ∧ (State.powerOn p).run = .running ∧
    (State.powerOn p).fault = { kind := .none, ia := 0#16, oc := 0#16, addr := 0#16 } ∧
    (State.powerOn p).platform = p ∧
    (∀ off, Memory.read (State.powerOn p).ram off = 0#16) ∧ (∀ d, (State.powerOn p).history d = [])

/-- R260, R261, R262 (what a reset does to STAGE, RUN and FAULT is the spec's decisions D15 and D23): from any stage and any run
state, `cpu_reset` sets the registers, STAGE, RUN and FAULT to their reset values and leaves RAM, the peripherals and the bindings;
`system_reset` does the same and clears every RAM cell; after either, the same reset again changes nothing. -/
def Obligations.ResetsRestoreTheResetValues : Prop :=
  ∀ s : State, ∃ c t, hostCommand .cpuReset s = .next c ∧ hostCommand .systemReset s = .next t ∧
    c = { ia := 0#16, oc := 0#16, arg0 := 0#16, acc := 0#16, stage := .awaitingFetch, run := .running,
          fault := { kind := .none, ia := 0#16, oc := 0#16, addr := 0#16 },
          platform := s.platform, ram := s.ram, deviceLog := s.deviceLog } ∧
    t = { c with ram := t.ram } ∧ (∀ off, Memory.read t.ram off = 0#16) ∧
    (∀ addr : Address, c.ramCell addr = s.ramCell addr) ∧
    (∀ addr : Address, (s.ramCell addr).isSome = true → t.ramCell addr = some 0#16) ∧
    hostCommand .cpuReset c = .next c ∧ hostCommand .systemReset t = .next t ∧ hostCommand .cpuReset t = .next t

/-- R265, R266 (the conversion, the refusals and the stage are the spec's decision D27): a program image that fits is written as
`wrap16` of its integers at offsets 0 up, between cycles only; every other cell, every register, STAGE, RUN, FAULT and every
peripheral stay; a longer image, or one in the middle of a cycle, is refused. -/
def Obligations.LoadProgramWritesTheImageFromZero : Prop :=
  ∀ (s : State) (cells : List Int), Memory.wf s.ram = true →
    (s.stage = .awaitingFetch → cells.length ≤ s.platform.ramCapacity →
      ∃ t, hostCommand (.loadProgram cells) s = .next t ∧ t = { s with ram := t.ram } ∧
        (∀ (i : Nat) (c : Int), cells[i]? = some c → IsWrap16 c (Memory.read t.ram i).toInt) ∧
        (∀ i : Nat, cells.length ≤ i → Memory.read t.ram i = Memory.read s.ram i)) ∧
    (s.stage = .awaitingFetch → s.platform.ramCapacity < cells.length →
      hostCommand (.loadProgram cells) s = .refused .programTooLong) ∧
    (s.stage ≠ .awaitingFetch → hostCommand (.loadProgram cells) s = .refused .loadDuringCycle)

/-- R70 (that it is a real access is the spec's decision D25): an inspection read answers what a bus read answers and leaves every
CPU register, STAGE, RUN, FAULT and RAM cell; an unmapped address is an error to the host and changes nothing; an offset that the
slave rejects is an error to the host, in the state the bus read leaves. -/
def Obligations.InspectionReadsThroughTheBus : Prop :=
  ∀ (s : State) (addr : Address),
    (∀ v, s.ramCell addr = some v → hostInspect addr s = (.value v, s)) ∧
    (∀ v s', memRead addr s = .ok v s' → hostInspect addr s = (.value v, s')) ∧
    (resolve s.platform.bindings addr = none → hostInspect addr s = (.error (.inspectUnmapped addr), s)) ∧
    (∀ s', memRead addr s = .error .slaveBoundsFault s' → hostInspect addr s = (.error (.inspectRejected addr), s')) ∧
    (hostSnapshot (hostInspect addr s).2 = hostSnapshot s ∧ (hostInspect addr s).2.ram = s.ram)

/-- R268, P5b: with nothing loaded and RAM of `n` cells alone, the machine executes `n` Noops and then, in step 3n + 1, faults at
the fetch from address `n`; it takes no step after. -/
def Obligations.EmptyRamRunsNoopsThenBusFaults : Prop :=
  ∀ n : Nat, n < 65536 →
    StepsTo (3 * n + 1) (State.powerOn (vmLayout n []))
      { State.powerOn (vmLayout n []) with
        ia := BitVec.ofNat 16 n, run := .faulted,
        fault := { kind := .busFault, ia := BitVec.ofNat 16 n, oc := 0#16, addr := BitVec.ofNat 16 n } }

/-- Log entry 9 (the model's own device): the state in which `withFetchWord` leaves a machine between cycles is the one its own
stages reach from the state with the two cells in RAM, in 2 steps for a format Z and 3 for a format A opcode. -/
def Obligations.FetchWordIsReachedByTheStages : Prop :=
  ∀ (s p : State) (nbits w : Nat) (c a : RegisterValue),
    s.run = .running → s.stage = .awaitingFetch → s.fault = FaultRecord.clear →
    tableCells nbits w = (c, a) → p = placeCell (nextAddress s.ia) a (placeCell s.ia c s) →
    p.ramCell s.ia = some c → p.ramCell (nextAddress s.ia) = some a →
    (operandCount c = some 0 → StepsTo 2 p (s.withFetchWord nbits w)) ∧
    (operandCount c = some 1 → StepsTo 3 p (s.withFetchWord nbits w)) ∧
    (operandCount c = none → StepsTo 1 p (s.withFetchWord nbits w))

/-! ## Invariants -/

/-- The invariant holds at reset, and at power-on of every machine that can be built (R263, R235). -/
def Obligations.ResetMeetsTheInvariant : Prop :=
  State.reset.Inv ∧ ∀ (p : Platform) (s : State), buildPlatform p = .next s → s.Inv

/-- Every step keeps the invariant: the configuration stays legal, RAM stays in canonical form inside its capacity, a stage after
decode holds a legal opcode, the FAULT record is clear unless a fault is latched and then tells its cause, and a halted machine
stands between cycles on Halt (R27, R28, R29, R55, R123, R202, R226). -/
def Obligations.StepKeepsTheInvariant : Prop :=
  ∀ s t : State, s.Inv → step s = .next t → t.Inv

/-- Every host command keeps the invariant (R269). -/
def Obligations.HostCommandsKeepTheInvariant : Prop :=
  ∀ (c : HostCommand) (s t : State), s.Inv → hostCommand c s = .next t → t.Inv

/-- R55, R230 (derived): over any number of steps the platform never changes, and a halted or faulted machine is never running
again. That no access a peripheral has received is forgotten is a clause about the model's own history (log entry 2, the model's
choice) and says nothing of what a peripheral keeps (R66). -/
def Obligations.RunsNeverRebindForgetOrResume : Prop :=
  ∀ (n : Nat) (s t : State), StepsTo n s t →
    t.platform = s.platform ∧ (∀ d, s.history d <:+ t.history d) ∧ (s.run ≠ .running → t.run = s.run)
end

