-- ==== Sys2Proof/Laws/Decode.lean ====
section
/-! SUPPORT. The value conversions keep the bit pattern; the opcode map as an equation on the opcode cell. -/

namespace Sys2Proof

@[simp] theorem wrapA_toNat (a : Address) : wrapA a.toNat = a := by
  simp [wrapA, BitVec.ofInt_natCast]

@[simp] theorem toAddr_eq (v : RegisterValue) : toAddr v = v := by simp [toAddr, wrapA]

@[simp] theorem toReg_eq (a : Address) : toReg a = a := by simp [toReg, wrap16, BitVec.ofInt_natCast]

theorem nextAddress_eq (a : Address) : nextAddress a = a + 1 := by
  apply BitVec.eq_of_toNat_eq
  have : (a.toNat : Int) + 1 = ((a.toNat + 1 : Nat) : Int) := rfl
  rw [nextAddress, wrapA, this, BitVec.ofInt_natCast]
  simp [BitVec.toNat_add]

theorem nextAddress_toNat (a : Address) : (nextAddress a).toNat = (a.toNat + 1) % 65536 := by
  rw [nextAddress_eq, BitVec.toNat_add]; rfl

/-- `wrap16(i)` in integers: the balanced remainder of `i` modulo 65536. -/
theorem toInt_wrap16 (i : Int) : (wrap16 i).toInt = i.bmod 65536 := by
  rw [wrap16, BitVec.toInt_ofInt]

/-- A row the map gives is a row of the table, with exactly the opcode cell looked up. -/
theorem lookupOpcode_some {oc : RegisterValue} {row : OpcodeRow} (h : lookupOpcode oc = some row) :
    row ∈ opcodeTable ∧ row.opcode = oc := by
  refine ⟨List.mem_of_find?_eq_some h, ?_⟩
  simpa using List.find?_some h

/-- The instruction of a pair of cells and the operand count come from one row. -/
theorem instrOf_some {oc : RegisterValue} {arg0 : Address} {i : Instr} (h : instrOf oc arg0 = some i) :
    ∃ row, lookupOpcode oc = some row ∧ row.build arg0 = i := by
  simpa [instrOf] using h

/-- The opcode map as a case list: the opcode cell decides the instruction, and the operand address is its operand. -/
theorem instrOf_cases {oc : RegisterValue} {arg0 : Address} {i : Instr} (h : instrOf oc arg0 = some i) :
    (oc = 0x0000#16 ∧ i = .noop) ∨ (oc = 0x0001#16 ∧ i = .ld arg0) ∨ (oc = 0x0002#16 ∧ i = .st arg0) ∨
    (oc = 0x0003#16 ∧ i = .add arg0) ∨ (oc = 0x0004#16 ∧ i = .neg) ∨ (oc = 0x0005#16 ∧ i = .mul arg0) ∨
    (oc = 0x0006#16 ∧ i = .div arg0) ∨ (oc = 0x0007#16 ∧ i = .eq arg0) ∨ (oc = 0x0008#16 ∧ i = .gt arg0) ∨
    (oc = 0x0009#16 ∧ i = .not) ∨ (oc = 0x000A#16 ∧ i = .and arg0) ∨ (oc = 0x000B#16 ∧ i = .or arg0) ∨
    (oc = 0x000C#16 ∧ i = .jmp arg0) ∨ (oc = 0x000D#16 ∧ i = .jif arg0) ∨ (oc = opcSqrt ∧ i = .sqrt) ∨
    (oc = 0x00FF#16 ∧ i = .halt) := by
  obtain ⟨row, hrow, rfl⟩ := instrOf_some h
  obtain ⟨hmem, rfl⟩ := lookupOpcode_some hrow
  fin_cases hmem <;> simp

theorem instrOf_isSome (oc : RegisterValue) (arg0 : Address) :
    (instrOf oc arg0).isSome = (operandCount oc).isSome := by
  simp [instrOf, operandCount]

end Sys2Proof
end

