-- ==== Sys2Proof/Laws/Alu.lean ====
section
/-! SUPPORT. The integer square root is the largest root that fits. -/

namespace Sys2Proof.Machine

theorem isqrtBits_spec (k n acc : Nat) (hlo : acc * acc ≤ n) (hhi : n < (acc + 2 ^ k) * (acc + 2 ^ k)) :
    isqrtBits k n acc * isqrtBits k n acc ≤ n ∧ n < (isqrtBits k n acc + 1) * (isqrtBits k n acc + 1) := by
  induction k generalizing acc with
  | zero => exact ⟨hlo, by simpa [isqrtBits] using hhi⟩
  | succ k ih =>
    unfold isqrtBits
    split
    · refine ih _ ‹_› ?_
      have : acc + 2 ^ k + 2 ^ k = acc + 2 ^ (k + 1) := by rw [pow_succ]; omega
      rwa [this]
    · exact ih _ hlo (by omega)

theorem isqrt_spec {n : Nat} (h : n < 65536) : isqrt n * isqrt n ≤ n ∧ n < (isqrt n + 1) * (isqrt n + 1) :=
  isqrtBits_spec 8 n 0 (by omega) (by simpa using h)

end Sys2Proof.Machine
end

