-- ==== Sys2Proof/Laws/Memory.lean ====
section
/-! SUPPORT. Reading after writing RAM's contents, and the canonical form that every write keeps. -/

namespace Sys2Proof.Machine.Memory

theorem wfFrom_mono {lo lo' : Nat} {m : Memory} (h : lo ≤ lo') (hm : wfFrom lo' m = true) : wfFrom lo m = true := by
  cases m with
  | nil => rfl
  | cons c m => simp only [wfFrom, Bool.and_eq_true, decide_eq_true_eq] at hm ⊢; exact ⟨⟨by omega, hm.1.2⟩, hm.2⟩

/-- An offset below every listed one reads as 0. -/
theorem read_of_lt {lo off : Nat} {m : Memory} (hm : wfFrom lo m = true) (h : off < lo) : read m off = 0#16 := by
  induction m generalizing lo with
  | nil => rfl
  | cons c m ih =>
    simp only [wfFrom, Bool.and_eq_true, decide_eq_true_eq] at hm
    have hne : off ≠ c.1 := by omega
    simp only [read, if_neg hne]
    exact ih hm.2 (by omega)

theorem write_wfFrom {lo off : Nat} {m : Memory} (v : RegisterValue) (hm : wfFrom lo m = true) (h : lo ≤ off) :
    wfFrom lo (write m off v) = true := by
  induction m generalizing lo with
  | nil => unfold write; split <;> simp [wfFrom, *]
  | cons c m ih =>
    simp only [wfFrom, Bool.and_eq_true, decide_eq_true_eq] at hm
    obtain ⟨⟨hlo, hne⟩, htail⟩ := hm
    unfold write
    split
    · split
      · simp [wfFrom, *]
      · have hlt : off + 1 ≤ c.1 := by omega
        simp [wfFrom, *]
    · split
      · split
        · exact wfFrom_mono (by omega) htail
        · have hoff : wfFrom (off + 1) m = true := wfFrom_mono (by omega) htail
          simp [wfFrom, *]
      · have hrec := ih htail (by omega : c.1 + 1 ≤ off)
        simp [wfFrom, *]

/-- Every write keeps the canonical form. -/
theorem write_wf {m : Memory} (off : Nat) (v : RegisterValue) (hm : wf m = true) : wf (write m off v) = true :=
  write_wfFrom v hm (Nat.zero_le _)

theorem writeAll_wf {m : Memory} (off : Nat) (vs : List RegisterValue) (hm : wf m = true) :
    wf (writeAll m off vs) = true := by
  induction vs generalizing m off with
  | nil => exact hm
  | cons v vs ih => exact ih _ (write_wf off v hm)

/-- A read gives the value last written to the same offset. -/
theorem read_write_same_from {lo off : Nat} {m : Memory} (v : RegisterValue) (hm : wfFrom lo m = true) :
    read (write m off v) off = v := by
  induction m generalizing lo with
  | nil => unfold write; split <;> simp [read, *]
  | cons c m ih =>
    simp only [wfFrom, Bool.and_eq_true, decide_eq_true_eq] at hm
    obtain ⟨⟨hlo, hne⟩, htail⟩ := hm
    unfold write
    split
    · rename_i hlt
      have hoff : off ≠ c.1 := by omega
      have hz : read m off = 0#16 := read_of_lt htail (by omega)
      split <;> simp [read, *]
    · split
      · rename_i heq
        subst heq
        have hz : read m c.1 = 0#16 := read_of_lt htail (by omega)
        split <;> simp [read, *]
      · rename_i hoff
        simp only [read, if_neg hoff]
        exact ih htail

theorem read_write_same {m : Memory} (off : Nat) (v : RegisterValue) (hm : wf m = true) :
    read (write m off v) off = v := read_write_same_from v hm

/-- A write leaves every other offset alone. -/
theorem read_write_other {m : Memory} {off o : Nat} (v : RegisterValue) (h : o ≠ off) :
    read (write m off v) o = read m o := by
  induction m with
  | nil => unfold write; split <;> simp [read, *]
  | cons c m ih =>
    unfold write
    split
    · split <;> simp [read, h]
    · split
      · rename_i heq
        subst heq
        split <;> simp [read, h]
      · by_cases hc : o = c.1 <;> simp [read, hc, ih]

/-- A write inside a bound lists no offset beyond it. -/
theorem write_bounded {m : Memory} {off cap : Nat} (v : RegisterValue) (hm : ∀ c ∈ m, c.1 < cap) (h : off < cap) :
    ∀ c ∈ write m off v, c.1 < cap := by
  induction m with
  | nil => unfold write; split <;> simp [*]
  | cons d m ih =>
    have hd : d.1 < cap := hm d (by simp)
    have ht : ∀ c ∈ m, c.1 < cap := fun c hc => hm c (by simp [hc])
    unfold write
    split
    · split
      · exact hm
      · simpa [h] using hm
    · split
      · split
        · exact ht
        · intro c hc
          rcases List.mem_cons.1 hc with rfl | hc
          · exact h
          · exact ht c hc
      · intro c hc
        rcases List.mem_cons.1 hc with rfl | hc
        · exact hd
        · exact ih ht c hc

theorem writeAll_bounded {m : Memory} {off cap : Nat} (vs : List RegisterValue) (hm : ∀ c ∈ m, c.1 < cap)
    (h : off + vs.length ≤ cap) : ∀ c ∈ writeAll m off vs, c.1 < cap := by
  induction vs generalizing m off with
  | nil => exact hm
  | cons v vs ih =>
    simp only [List.length_cons] at h
    exact ih (write_bounded v hm (by omega)) (by omega)

/-- Two memories in canonical form that read the same everywhere are equal data. -/
theorem eq_of_read_eq_from {lo : Nat} {m m' : Memory} (hm : wfFrom lo m = true) (hm' : wfFrom lo m' = true)
    (h : ∀ o, read m o = read m' o) : m = m' := by
  induction m generalizing lo m' with
  | nil =>
    cases m' with
    | nil => rfl
    | cons c' m' =>
      simp only [wfFrom, Bool.and_eq_true, decide_eq_true_eq] at hm'
      have := h c'.1
      simp only [read, if_true] at this
      exact absurd this.symm hm'.1.2
  | cons c m ih =>
    simp only [wfFrom, Bool.and_eq_true, decide_eq_true_eq] at hm
    cases m' with
    | nil =>
      have := h c.1
      simp only [read, if_true] at this
      exact absurd this hm.1.2
    | cons c' m' =>
      simp only [wfFrom, Bool.and_eq_true, decide_eq_true_eq] at hm'
      have hoff : c.1 = c'.1 := by
        rcases Nat.lt_trichotomy c.1 c'.1 with hlt | heq | hgt
        · have := h c.1
          simp only [read, if_true, if_neg (Nat.ne_of_lt hlt)] at this
          exact absurd (this.trans (read_of_lt hm'.2 (by omega))) hm.1.2
        · exact heq
        · have := h c'.1
          simp only [read, if_true, if_neg (Nat.ne_of_lt hgt)] at this
          exact absurd (this.symm.trans (read_of_lt hm.2 (by omega))) hm'.1.2
      obtain ⟨o, v⟩ := c
      obtain ⟨o', v'⟩ := c'
      simp only at hoff
      subst hoff
      have hv : v = v' := by simpa [read] using h o
      subst hv
      have htail : m = m' := by
        refine ih hm.2 hm'.2 (fun x => ?_)
        by_cases hx : x = o
        · subst hx
          rw [read_of_lt hm.2 (by omega), read_of_lt hm'.2 (by omega)]
        · simpa [read, hx] using h x
      rw [htail]

end Sys2Proof.Machine.Memory
end

