-- ==== Sys2Proof/Laws/State.lean ====
section
/-! SUPPORT. What each named update does to each field of State, one lemma a field. -/

namespace Sys2Proof.Machine

@[simp] theorem State.setIa_ia (s : State) (v : Address) : (s.setIa v).ia = v := rfl
@[simp] theorem State.setIa_oc (s : State) (v : Address) : (s.setIa v).oc = s.oc := rfl
@[simp] theorem State.setIa_arg0 (s : State) (v : Address) : (s.setIa v).arg0 = s.arg0 := rfl
@[simp] theorem State.setIa_acc (s : State) (v : Address) : (s.setIa v).acc = s.acc := rfl
@[simp] theorem State.setIa_stage (s : State) (v : Address) : (s.setIa v).stage = s.stage := rfl
@[simp] theorem State.setIa_run (s : State) (v : Address) : (s.setIa v).run = s.run := rfl
@[simp] theorem State.setIa_fault (s : State) (v : Address) : (s.setIa v).fault = s.fault := rfl
@[simp] theorem State.setIa_platform (s : State) (v : Address) : (s.setIa v).platform = s.platform := rfl
@[simp] theorem State.setIa_ram (s : State) (v : Address) : (s.setIa v).ram = s.ram := rfl
@[simp] theorem State.setIa_deviceLog (s : State) (v : Address) : (s.setIa v).deviceLog = s.deviceLog := rfl

@[simp] theorem State.setOc_ia (s : State) (v : RegisterValue) : (s.setOc v).ia = s.ia := rfl
@[simp] theorem State.setOc_oc (s : State) (v : RegisterValue) : (s.setOc v).oc = v := rfl
@[simp] theorem State.setOc_arg0 (s : State) (v : RegisterValue) : (s.setOc v).arg0 = s.arg0 := rfl
@[simp] theorem State.setOc_acc (s : State) (v : RegisterValue) : (s.setOc v).acc = s.acc := rfl
@[simp] theorem State.setOc_stage (s : State) (v : RegisterValue) : (s.setOc v).stage = s.stage := rfl
@[simp] theorem State.setOc_run (s : State) (v : RegisterValue) : (s.setOc v).run = s.run := rfl
@[simp] theorem State.setOc_fault (s : State) (v : RegisterValue) : (s.setOc v).fault = s.fault := rfl
@[simp] theorem State.setOc_platform (s : State) (v : RegisterValue) : (s.setOc v).platform = s.platform := rfl
@[simp] theorem State.setOc_ram (s : State) (v : RegisterValue) : (s.setOc v).ram = s.ram := rfl
@[simp] theorem State.setOc_deviceLog (s : State) (v : RegisterValue) : (s.setOc v).deviceLog = s.deviceLog := rfl

@[simp] theorem State.setArg0_ia (s : State) (v : Address) : (s.setArg0 v).ia = s.ia := rfl
@[simp] theorem State.setArg0_oc (s : State) (v : Address) : (s.setArg0 v).oc = s.oc := rfl
@[simp] theorem State.setArg0_arg0 (s : State) (v : Address) : (s.setArg0 v).arg0 = v := rfl
@[simp] theorem State.setArg0_acc (s : State) (v : Address) : (s.setArg0 v).acc = s.acc := rfl
@[simp] theorem State.setArg0_stage (s : State) (v : Address) : (s.setArg0 v).stage = s.stage := rfl
@[simp] theorem State.setArg0_run (s : State) (v : Address) : (s.setArg0 v).run = s.run := rfl
@[simp] theorem State.setArg0_fault (s : State) (v : Address) : (s.setArg0 v).fault = s.fault := rfl
@[simp] theorem State.setArg0_platform (s : State) (v : Address) : (s.setArg0 v).platform = s.platform := rfl
@[simp] theorem State.setArg0_ram (s : State) (v : Address) : (s.setArg0 v).ram = s.ram := rfl
@[simp] theorem State.setArg0_deviceLog (s : State) (v : Address) : (s.setArg0 v).deviceLog = s.deviceLog := rfl

@[simp] theorem State.setAcc_ia (s : State) (v : RegisterValue) : (s.setAcc v).ia = s.ia := rfl
@[simp] theorem State.setAcc_oc (s : State) (v : RegisterValue) : (s.setAcc v).oc = s.oc := rfl
@[simp] theorem State.setAcc_arg0 (s : State) (v : RegisterValue) : (s.setAcc v).arg0 = s.arg0 := rfl
@[simp] theorem State.setAcc_acc (s : State) (v : RegisterValue) : (s.setAcc v).acc = v := rfl
@[simp] theorem State.setAcc_stage (s : State) (v : RegisterValue) : (s.setAcc v).stage = s.stage := rfl
@[simp] theorem State.setAcc_run (s : State) (v : RegisterValue) : (s.setAcc v).run = s.run := rfl
@[simp] theorem State.setAcc_fault (s : State) (v : RegisterValue) : (s.setAcc v).fault = s.fault := rfl
@[simp] theorem State.setAcc_platform (s : State) (v : RegisterValue) : (s.setAcc v).platform = s.platform := rfl
@[simp] theorem State.setAcc_ram (s : State) (v : RegisterValue) : (s.setAcc v).ram = s.ram := rfl
@[simp] theorem State.setAcc_deviceLog (s : State) (v : RegisterValue) : (s.setAcc v).deviceLog = s.deviceLog := rfl

@[simp] theorem State.setStage_ia (s : State) (v : Stage) : (s.setStage v).ia = s.ia := rfl
@[simp] theorem State.setStage_oc (s : State) (v : Stage) : (s.setStage v).oc = s.oc := rfl
@[simp] theorem State.setStage_arg0 (s : State) (v : Stage) : (s.setStage v).arg0 = s.arg0 := rfl
@[simp] theorem State.setStage_acc (s : State) (v : Stage) : (s.setStage v).acc = s.acc := rfl
@[simp] theorem State.setStage_stage (s : State) (v : Stage) : (s.setStage v).stage = v := rfl
@[simp] theorem State.setStage_run (s : State) (v : Stage) : (s.setStage v).run = s.run := rfl
@[simp] theorem State.setStage_fault (s : State) (v : Stage) : (s.setStage v).fault = s.fault := rfl
@[simp] theorem State.setStage_platform (s : State) (v : Stage) : (s.setStage v).platform = s.platform := rfl
@[simp] theorem State.setStage_ram (s : State) (v : Stage) : (s.setStage v).ram = s.ram := rfl
@[simp] theorem State.setStage_deviceLog (s : State) (v : Stage) : (s.setStage v).deviceLog = s.deviceLog := rfl

@[simp] theorem State.setRun_ia (s : State) (v : RunState) : (s.setRun v).ia = s.ia := rfl
@[simp] theorem State.setRun_oc (s : State) (v : RunState) : (s.setRun v).oc = s.oc := rfl
@[simp] theorem State.setRun_arg0 (s : State) (v : RunState) : (s.setRun v).arg0 = s.arg0 := rfl
@[simp] theorem State.setRun_acc (s : State) (v : RunState) : (s.setRun v).acc = s.acc := rfl
@[simp] theorem State.setRun_stage (s : State) (v : RunState) : (s.setRun v).stage = s.stage := rfl
@[simp] theorem State.setRun_run (s : State) (v : RunState) : (s.setRun v).run = v := rfl
@[simp] theorem State.setRun_fault (s : State) (v : RunState) : (s.setRun v).fault = s.fault := rfl
@[simp] theorem State.setRun_platform (s : State) (v : RunState) : (s.setRun v).platform = s.platform := rfl
@[simp] theorem State.setRun_ram (s : State) (v : RunState) : (s.setRun v).ram = s.ram := rfl
@[simp] theorem State.setRun_deviceLog (s : State) (v : RunState) : (s.setRun v).deviceLog = s.deviceLog := rfl

@[simp] theorem State.setFault_ia (s : State) (v : FaultRecord) : (s.setFault v).ia = s.ia := rfl
@[simp] theorem State.setFault_oc (s : State) (v : FaultRecord) : (s.setFault v).oc = s.oc := rfl
@[simp] theorem State.setFault_arg0 (s : State) (v : FaultRecord) : (s.setFault v).arg0 = s.arg0 := rfl
@[simp] theorem State.setFault_acc (s : State) (v : FaultRecord) : (s.setFault v).acc = s.acc := rfl
@[simp] theorem State.setFault_stage (s : State) (v : FaultRecord) : (s.setFault v).stage = s.stage := rfl
@[simp] theorem State.setFault_run (s : State) (v : FaultRecord) : (s.setFault v).run = s.run := rfl
@[simp] theorem State.setFault_fault (s : State) (v : FaultRecord) : (s.setFault v).fault = v := rfl
@[simp] theorem State.setFault_platform (s : State) (v : FaultRecord) : (s.setFault v).platform = s.platform := rfl
@[simp] theorem State.setFault_ram (s : State) (v : FaultRecord) : (s.setFault v).ram = s.ram := rfl
@[simp] theorem State.setFault_deviceLog (s : State) (v : FaultRecord) : (s.setFault v).deviceLog = s.deviceLog := rfl

@[simp] theorem State.setRam_ia (s : State) (m : Memory) : (s.setRam m).ia = s.ia := rfl
@[simp] theorem State.setRam_oc (s : State) (m : Memory) : (s.setRam m).oc = s.oc := rfl
@[simp] theorem State.setRam_arg0 (s : State) (m : Memory) : (s.setRam m).arg0 = s.arg0 := rfl
@[simp] theorem State.setRam_acc (s : State) (m : Memory) : (s.setRam m).acc = s.acc := rfl
@[simp] theorem State.setRam_stage (s : State) (m : Memory) : (s.setRam m).stage = s.stage := rfl
@[simp] theorem State.setRam_run (s : State) (m : Memory) : (s.setRam m).run = s.run := rfl
@[simp] theorem State.setRam_fault (s : State) (m : Memory) : (s.setRam m).fault = s.fault := rfl
@[simp] theorem State.setRam_platform (s : State) (m : Memory) : (s.setRam m).platform = s.platform := rfl
@[simp] theorem State.setRam_ram (s : State) (m : Memory) : (s.setRam m).ram = m := rfl
@[simp] theorem State.setRam_deviceLog (s : State) (m : Memory) : (s.setRam m).deviceLog = s.deviceLog := rfl

@[simp] theorem State.logAccess_ia (s : State) (d : Nat) (x : Access) : (s.logAccess d x).ia = s.ia := rfl
@[simp] theorem State.logAccess_oc (s : State) (d : Nat) (x : Access) : (s.logAccess d x).oc = s.oc := rfl
@[simp] theorem State.logAccess_arg0 (s : State) (d : Nat) (x : Access) : (s.logAccess d x).arg0 = s.arg0 := rfl
@[simp] theorem State.logAccess_acc (s : State) (d : Nat) (x : Access) : (s.logAccess d x).acc = s.acc := rfl
@[simp] theorem State.logAccess_stage (s : State) (d : Nat) (x : Access) : (s.logAccess d x).stage = s.stage := rfl
@[simp] theorem State.logAccess_run (s : State) (d : Nat) (x : Access) : (s.logAccess d x).run = s.run := rfl
@[simp] theorem State.logAccess_fault (s : State) (d : Nat) (x : Access) : (s.logAccess d x).fault = s.fault := rfl
@[simp] theorem State.logAccess_platform (s : State) (d : Nat) (x : Access) : (s.logAccess d x).platform = s.platform := rfl
@[simp] theorem State.logAccess_ram (s : State) (d : Nat) (x : Access) : (s.logAccess d x).ram = s.ram := rfl
@[simp] theorem State.logAccess_deviceLog (s : State) (d : Nat) (x : Access) : (s.logAccess d x).deviceLog = { device := d, access := x } :: s.deviceLog := rfl

@[simp] theorem State.endCycle_ia (s : State) : s.endCycle.ia = s.ia := rfl
@[simp] theorem State.endCycle_oc (s : State) : s.endCycle.oc = s.oc := rfl
@[simp] theorem State.endCycle_arg0 (s : State) : s.endCycle.arg0 = s.arg0 := rfl
@[simp] theorem State.endCycle_acc (s : State) : s.endCycle.acc = s.acc := rfl
@[simp] theorem State.endCycle_stage (s : State) : s.endCycle.stage = Stage.awaitingFetch := rfl
@[simp] theorem State.endCycle_run (s : State) : s.endCycle.run = s.run := rfl
@[simp] theorem State.endCycle_fault (s : State) : s.endCycle.fault = s.fault := rfl
@[simp] theorem State.endCycle_platform (s : State) : s.endCycle.platform = s.platform := rfl
@[simp] theorem State.endCycle_ram (s : State) : s.endCycle.ram = s.ram := rfl
@[simp] theorem State.endCycle_deviceLog (s : State) : s.endCycle.deviceLog = s.deviceLog := rfl

@[simp] theorem State.finishAcc_ia (s : State) (v : RegisterValue) : (s.finishAcc v).ia = s.ia := rfl
@[simp] theorem State.finishAcc_oc (s : State) (v : RegisterValue) : (s.finishAcc v).oc = s.oc := rfl
@[simp] theorem State.finishAcc_arg0 (s : State) (v : RegisterValue) : (s.finishAcc v).arg0 = s.arg0 := rfl
@[simp] theorem State.finishAcc_acc (s : State) (v : RegisterValue) : (s.finishAcc v).acc = v := rfl
@[simp] theorem State.finishAcc_stage (s : State) (v : RegisterValue) : (s.finishAcc v).stage = Stage.awaitingFetch := rfl
@[simp] theorem State.finishAcc_run (s : State) (v : RegisterValue) : (s.finishAcc v).run = s.run := rfl
@[simp] theorem State.finishAcc_fault (s : State) (v : RegisterValue) : (s.finishAcc v).fault = s.fault := rfl
@[simp] theorem State.finishAcc_platform (s : State) (v : RegisterValue) : (s.finishAcc v).platform = s.platform := rfl
@[simp] theorem State.finishAcc_ram (s : State) (v : RegisterValue) : (s.finishAcc v).ram = s.ram := rfl
@[simp] theorem State.finishAcc_deviceLog (s : State) (v : RegisterValue) : (s.finishAcc v).deviceLog = s.deviceLog := rfl

@[simp] theorem raiseFault_ia (k : FaultKind) (a : Address) (s : State) : (raiseFault k a s).ia = s.ia := rfl
@[simp] theorem raiseFault_oc (k : FaultKind) (a : Address) (s : State) : (raiseFault k a s).oc = s.oc := rfl
@[simp] theorem raiseFault_arg0 (k : FaultKind) (a : Address) (s : State) : (raiseFault k a s).arg0 = s.arg0 := rfl
@[simp] theorem raiseFault_acc (k : FaultKind) (a : Address) (s : State) : (raiseFault k a s).acc = s.acc := rfl
@[simp] theorem raiseFault_stage (k : FaultKind) (a : Address) (s : State) : (raiseFault k a s).stage = s.stage := rfl
@[simp] theorem raiseFault_run (k : FaultKind) (a : Address) (s : State) : (raiseFault k a s).run = RunState.faulted := rfl
@[simp] theorem raiseFault_fault (k : FaultKind) (a : Address) (s : State) : (raiseFault k a s).fault = { kind := k, ia := s.ia, oc := s.oc, addr := a } := rfl
@[simp] theorem raiseFault_platform (k : FaultKind) (a : Address) (s : State) : (raiseFault k a s).platform = s.platform := rfl
@[simp] theorem raiseFault_ram (k : FaultKind) (a : Address) (s : State) : (raiseFault k a s).ram = s.ram := rfl
@[simp] theorem raiseFault_deviceLog (k : FaultKind) (a : Address) (s : State) : (raiseFault k a s).deviceLog = s.deviceLog := rfl

@[simp] theorem cpuReset_ia (s : State) : (cpuReset s).ia = 0#16 := rfl
@[simp] theorem cpuReset_oc (s : State) : (cpuReset s).oc = 0#16 := rfl
@[simp] theorem cpuReset_arg0 (s : State) : (cpuReset s).arg0 = 0#16 := rfl
@[simp] theorem cpuReset_acc (s : State) : (cpuReset s).acc = 0#16 := rfl
@[simp] theorem cpuReset_stage (s : State) : (cpuReset s).stage = Stage.awaitingFetch := rfl
@[simp] theorem cpuReset_run (s : State) : (cpuReset s).run = RunState.running := rfl
@[simp] theorem cpuReset_fault (s : State) : (cpuReset s).fault = FaultRecord.clear := rfl
@[simp] theorem cpuReset_platform (s : State) : (cpuReset s).platform = s.platform := rfl
@[simp] theorem cpuReset_ram (s : State) : (cpuReset s).ram = s.ram := rfl
@[simp] theorem cpuReset_deviceLog (s : State) : (cpuReset s).deviceLog = s.deviceLog := rfl

@[simp] theorem systemReset_ia (s : State) : (systemReset s).ia = 0#16 := rfl
@[simp] theorem systemReset_oc (s : State) : (systemReset s).oc = 0#16 := rfl
@[simp] theorem systemReset_arg0 (s : State) : (systemReset s).arg0 = 0#16 := rfl
@[simp] theorem systemReset_acc (s : State) : (systemReset s).acc = 0#16 := rfl
@[simp] theorem systemReset_stage (s : State) : (systemReset s).stage = Stage.awaitingFetch := rfl
@[simp] theorem systemReset_run (s : State) : (systemReset s).run = RunState.running := rfl
@[simp] theorem systemReset_fault (s : State) : (systemReset s).fault = FaultRecord.clear := rfl
@[simp] theorem systemReset_platform (s : State) : (systemReset s).platform = s.platform := rfl
@[simp] theorem systemReset_ram (s : State) : (systemReset s).ram = [] := rfl
@[simp] theorem systemReset_deviceLog (s : State) : (systemReset s).deviceLog = s.deviceLog := rfl

end Sys2Proof.Machine
end

