-- ==== Sys2Proof/Laws/Ops.lean ====
section
/-! SUPPORT. Everything a bus access can do, said once: the cases of the slaves' answers, of `memRead` and `memWrite`, and of the operand forms over them. -/

namespace Sys2Proof.Machine

/-- A read that the slave answers: RAM inside its capacity, unchanged, or one access to one peripheral. -/
theorem slaveRead_some {sl : Slave} {off : Nat} {s s' : State} {v : RegisterValue} (h : slaveRead sl off s = (some v, s')) :
    (sl = .ram ∧ off < s.platform.ramCapacity ∧ v = Memory.read s.ram off ∧ s' = s) ∨
    (∃ d, sl = .peripheral d ∧ Config.peripheralRead d (s.history d) off = some v ∧ s' = s.logAccess d (.read off)) := by
  cases sl with
  | ram => by_cases hc : off < s.platform.ramCapacity <;> simp [slaveRead, hc] at h; exact .inl ⟨rfl, hc, h.1.symm, h.2.symm⟩
  | peripheral d => simp only [slaveRead, Prod.mk.injEq] at h; exact .inr ⟨d, rfl, h.1, h.2.symm⟩

/-- A read that the slave rejects: RAM beyond its capacity, unchanged, or one access to one peripheral. -/
theorem slaveRead_none {sl : Slave} {off : Nat} {s s' : State} (h : slaveRead sl off s = (none, s')) :
    (sl = .ram ∧ ¬ off < s.platform.ramCapacity ∧ s' = s) ∨
    (∃ d, sl = .peripheral d ∧ Config.peripheralRead d (s.history d) off = none ∧ s' = s.logAccess d (.read off)) := by
  cases sl with
  | ram => by_cases hc : off < s.platform.ramCapacity <;> simp [slaveRead, hc] at h; exact .inl ⟨rfl, hc, h.symm⟩
  | peripheral d => simp only [slaveRead, Prod.mk.injEq] at h; exact .inr ⟨d, rfl, h.1, h.2.symm⟩

/-- A write that the slave accepts: one RAM cell, or one access to one peripheral. -/
theorem slaveWrite_true {sl : Slave} {off : Nat} {s s' : State} {v : RegisterValue} (h : slaveWrite sl off v s = (true, s')) :
    (sl = .ram ∧ off < s.platform.ramCapacity ∧ s' = s.setRam (Memory.write s.ram off v)) ∨
    (∃ d, sl = .peripheral d ∧ Config.peripheralAccepts d (s.history d) off v = true ∧ s' = s.logAccess d (.write off v)) := by
  cases sl with
  | ram => by_cases hc : off < s.platform.ramCapacity <;> simp [slaveWrite, hc] at h; exact .inl ⟨rfl, hc, h.symm⟩
  | peripheral d => simp only [slaveWrite, Prod.mk.injEq] at h; exact .inr ⟨d, rfl, h.1, h.2.symm⟩

/-- A write that the slave rejects: RAM beyond its capacity, unchanged, or one access to one peripheral. -/
theorem slaveWrite_false {sl : Slave} {off : Nat} {s s' : State} {v : RegisterValue} (h : slaveWrite sl off v s = (false, s')) :
    (sl = .ram ∧ ¬ off < s.platform.ramCapacity ∧ s' = s) ∨
    (∃ d, sl = .peripheral d ∧ Config.peripheralAccepts d (s.history d) off v = false ∧ s' = s.logAccess d (.write off v)) := by
  cases sl with
  | ram => by_cases hc : off < s.platform.ramCapacity <;> simp [slaveWrite, hc] at h; exact .inl ⟨rfl, hc, h.symm⟩
  | peripheral d => simp only [slaveWrite, Prod.mk.injEq] at h; exact .inr ⟨d, rfl, h.1, h.2.symm⟩

/-- A successful read is of a RAM cell and changes nothing, or is one access to one peripheral. -/
theorem memRead_ok {addr : Address} {s s' : State} {v : RegisterValue} (h : memRead addr s = .ok v s') :
    (∃ off, resolve s.platform.bindings addr = some (.ram, off) ∧ off < s.platform.ramCapacity ∧
      v = Memory.read s.ram off ∧ s' = s) ∨
    (∃ d off, resolve s.platform.bindings addr = some (.peripheral d, off) ∧
      Config.peripheralRead d (s.history d) off = some v ∧ s' = s.logAccess d (.read off)) := by
  unfold memRead at h
  split at h
  · cases h
  · rename_i hres
    split at h <;> cases h
    obtain ⟨rfl, hc⟩ | ⟨d, rfl, hc⟩ := slaveRead_some ‹_›
    · exact .inl ⟨_, hres, hc⟩
    · exact .inr ⟨d, _, hres, hc⟩

/-- A failed read is of an unmapped address, or of an offset its slave rejects. -/
theorem memRead_error {addr : Address} {s s' : State} {k : FaultKind} (h : memRead addr s = .error k s') :
    (k = .busFault ∧ resolve s.platform.bindings addr = none ∧ s' = s) ∨
    (k = .slaveBoundsFault ∧ ∃ off, resolve s.platform.bindings addr = some (.ram, off) ∧
      ¬ off < s.platform.ramCapacity ∧ s' = s) ∨
    (k = .slaveBoundsFault ∧ ∃ d off, resolve s.platform.bindings addr = some (.peripheral d, off) ∧
      Config.peripheralRead d (s.history d) off = none ∧ s' = s.logAccess d (.read off)) := by
  unfold memRead at h
  split at h
  · cases h; exact .inl ⟨rfl, ‹_›, rfl⟩
  · rename_i hres
    split at h <;> cases h
    obtain ⟨rfl, hc⟩ | ⟨d, rfl, hc⟩ := slaveRead_none ‹_›
    · exact .inr (.inl ⟨rfl, _, hres, hc⟩)
    · exact .inr (.inr ⟨rfl, d, _, hres, hc⟩)

/-- A failed read is a BusFault or a SlaveBoundsFault. -/
theorem memRead_error_kind {addr : Address} {s s' : State} {k : FaultKind} (h : memRead addr s = .error k s') :
    k = .busFault ∨ k = .slaveBoundsFault := by
  obtain ⟨rfl, _⟩ | ⟨rfl, _⟩ | ⟨rfl, _⟩ := memRead_error h <;> simp

/-- A successful write changes one RAM cell, or is one access to one peripheral. -/
theorem memWrite_ok {addr : Address} {v : RegisterValue} {s s' : State} {u : Unit} (h : memWrite addr v s = .ok u s') :
    (∃ off, resolve s.platform.bindings addr = some (.ram, off) ∧ off < s.platform.ramCapacity ∧
      s' = s.setRam (Memory.write s.ram off v)) ∨
    (∃ d off, resolve s.platform.bindings addr = some (.peripheral d, off) ∧
      Config.peripheralAccepts d (s.history d) off v = true ∧ s' = s.logAccess d (.write off v)) := by
  unfold memWrite at h
  split at h
  · cases h
  · rename_i hres
    split at h <;> cases h
    obtain ⟨rfl, hc⟩ | ⟨d, rfl, hc⟩ := slaveWrite_true ‹_›
    · exact .inl ⟨_, hres, hc⟩
    · exact .inr ⟨d, _, hres, hc⟩

/-- A failed write is to an unmapped address, or to an offset its slave rejects; no RAM cell changes. -/
theorem memWrite_error {addr : Address} {v : RegisterValue} {s s' : State} {k : FaultKind}
    (h : memWrite addr v s = .error k s') :
    (k = .busFault ∧ resolve s.platform.bindings addr = none ∧ s' = s) ∨
    (k = .slaveBoundsFault ∧ ∃ off, resolve s.platform.bindings addr = some (.ram, off) ∧
      ¬ off < s.platform.ramCapacity ∧ s' = s) ∨
    (k = .slaveBoundsFault ∧ ∃ d off, resolve s.platform.bindings addr = some (.peripheral d, off) ∧
      Config.peripheralAccepts d (s.history d) off v = false ∧ s' = s.logAccess d (.write off v)) := by
  unfold memWrite at h
  split at h
  · cases h; exact .inl ⟨rfl, ‹_›, rfl⟩
  · rename_i hres
    split at h <;> cases h
    obtain ⟨rfl, hc⟩ | ⟨d, rfl, hc⟩ := slaveWrite_false ‹_›
    · exact .inr (.inl ⟨rfl, _, hres, hc⟩)
    · exact .inr (.inr ⟨rfl, d, _, hres, hc⟩)

/-- What any bus access leaves alone: every register, STAGE, RUN, FAULT and the platform. -/
structure SameCpu (s t : State) : Prop where
  ia : t.ia = s.ia
  oc : t.oc = s.oc
  arg0 : t.arg0 = s.arg0
  acc : t.acc = s.acc
  stage : t.stage = s.stage
  run : t.run = s.run
  fault : t.fault = s.fault
  platform : t.platform = s.platform

theorem SameCpu.refl (s : State) : SameCpu s s := ⟨rfl, rfl, rfl, rfl, rfl, rfl, rfl, rfl⟩

theorem sameCpu_logAccess (s : State) (d : Nat) (x : Access) : SameCpu s (s.logAccess d x) :=
  ⟨rfl, rfl, rfl, rfl, rfl, rfl, rfl, rfl⟩

theorem sameCpu_setRam (s : State) (m : Memory) : SameCpu s (s.setRam m) := ⟨rfl, rfl, rfl, rfl, rfl, rfl, rfl, rfl⟩

/-- An answered read touches no register and no RAM cell. -/
theorem memRead_ok_frame {addr : Address} {s s' : State} {v : RegisterValue} (h : memRead addr s = .ok v s') :
    SameCpu s s' ∧ s'.ram = s.ram := by
  obtain ⟨_, _, _, _, rfl⟩ | ⟨_, _, _, _, rfl⟩ := memRead_ok h
  · exact ⟨SameCpu.refl _, rfl⟩
  · exact ⟨sameCpu_logAccess .., rfl⟩

/-- A failed read touches no register and no RAM cell. -/
theorem memRead_error_frame {addr : Address} {s s' : State} {k : FaultKind} (h : memRead addr s = .error k s') :
    SameCpu s s' ∧ s'.ram = s.ram := by
  obtain ⟨_, _, rfl⟩ | ⟨_, _, _, _, rfl⟩ | ⟨_, _, _, _, _, rfl⟩ := memRead_error h
  · exact ⟨SameCpu.refl _, rfl⟩
  · exact ⟨SameCpu.refl _, rfl⟩
  · exact ⟨sameCpu_logAccess .., rfl⟩

theorem memWrite_ok_frame {addr : Address} {v : RegisterValue} {s s' : State} {u : Unit}
    (h : memWrite addr v s = .ok u s') : SameCpu s s' := by
  obtain ⟨_, _, _, rfl⟩ | ⟨_, _, _, _, rfl⟩ := memWrite_ok h
  · exact sameCpu_setRam ..
  · exact sameCpu_logAccess ..

theorem memWrite_error_frame {addr : Address} {v : RegisterValue} {s s' : State} {k : FaultKind}
    (h : memWrite addr v s = .error k s') : SameCpu s s' ∧ s'.ram = s.ram := by
  obtain ⟨_, _, rfl⟩ | ⟨_, _, _, _, rfl⟩ | ⟨_, _, _, _, _, rfl⟩ := memWrite_error h
  · exact ⟨SameCpu.refl _, rfl⟩
  · exact ⟨SameCpu.refl _, rfl⟩
  · exact ⟨sameCpu_logAccess .., rfl⟩

/-- The RAM cells that addresses name depend on the platform and RAM's contents alone. -/
theorem ramCell_congr {s t : State} (hp : t.platform = s.platform) (hr : t.ram = s.ram) (b : Address) :
    t.ramCell b = s.ramCell b := by
  unfold State.ramCell
  rw [hp, hr]

/-- An address names a RAM cell exactly when it resolves to an offset inside RAM's capacity. -/
theorem ramCell_some {s : State} {addr : Address} {v : RegisterValue} :
    s.ramCell addr = some v ↔ ∃ off, resolve s.platform.bindings addr = some (.ram, off) ∧
      off < s.platform.ramCapacity ∧ Memory.read s.ram off = v := by
  unfold State.ramCell
  split
  · rename_i off hres
    by_cases hlt : off < s.platform.ramCapacity <;> simp [hres, hlt]
  · rename_i hno
    constructor
    · intro h; cases h
    · rintro ⟨off, hres, -⟩; exact absurd hres (hno off)

/-- A RAM cell is read without any change. -/
theorem memRead_of_ramCell {s : State} {addr : Address} {v : RegisterValue} (h : s.ramCell addr = some v) :
    memRead addr s = .ok v s := by
  obtain ⟨off, hres, hlt, rfl⟩ := ramCell_some.1 h
  simp only [memRead, hres, slaveRead, if_pos hlt]

/-- A write to a RAM cell is read back at its address, and leaves every address that resolves elsewhere alone. -/
theorem ramCell_write_same {s : State} {addr : Address} {off : Nat} (v : RegisterValue) (hwf : Memory.wf s.ram = true)
    (hres : resolve s.platform.bindings addr = some (.ram, off)) (hlt : off < s.platform.ramCapacity) :
    (s.setRam (Memory.write s.ram off v)).ramCell addr = some v :=
  ramCell_some.2 ⟨off, hres, hlt, Memory.read_write_same off v hwf⟩

theorem ramCell_write_other {s : State} {addr b : Address} {off : Nat} (v : RegisterValue)
    (hres : resolve s.platform.bindings addr = some (.ram, off))
    (hb : resolve s.platform.bindings b ≠ resolve s.platform.bindings addr) :
    (s.setRam (Memory.write s.ram off v)).ramCell b = s.ramCell b := by
  unfold State.ramCell
  simp only [State.setRam_platform, State.setRam_ram]
  split
  · rename_i o ho
    have hne : o ≠ off := fun e => hb (by rw [ho, hres, e])
    simp only [Memory.read_write_other v hne]
  · rfl

/-- A dereferenced operand: the read answers and the rest runs on it, or the read faults with the operand address. -/
theorem withOperand_cases (addr : Address) (s : State) (k : RegisterValue → State → State) :
    (∃ a s', memRead addr s = .ok a s' ∧ withOperand addr s k = .next (k a s')) ∨
    (∃ kind s', memRead addr s = .error kind s' ∧ withOperand addr s k = .next (raiseFault kind addr s')) := by
  unfold withOperand
  cases memRead addr s with
  | ok a s' => exact .inl ⟨a, s', rfl, rfl⟩
  | error kind s' => exact .inr ⟨kind, s', rfl, rfl⟩

/-- A written operand: the write lands and the cycle ends, or the write faults with the operand address. -/
theorem storeOperand_cases (addr : Address) (v : RegisterValue) (s : State) :
    (∃ u s', memWrite addr v s = .ok u s' ∧ storeOperand addr v s = .next s'.endCycle) ∨
    (∃ kind s', memWrite addr v s = .error kind s' ∧ storeOperand addr v s = .next (raiseFault kind addr s')) := by
  unfold storeOperand
  cases memWrite addr v s with
  | ok a s' => exact .inl ⟨a, s', rfl, rfl⟩
  | error kind s' => exact .inr ⟨kind, s', rfl, rfl⟩

end Sys2Proof.Machine
end

