-- ==== Sys2Proof/Laws/PerInstr.lean ====
section
/-! SUPPORT. Per-instruction facts about the syntax: every encoding is its table row's opcode cell with the row's number of operand cells. -/

namespace Sys2Proof.Laws.OpcodeCell

/-- `i`'s encoding begins with the opcode cell of a row of the map, has that row's length (R95), and the row builds `i`. -/
def Statement (i : Instr) : Prop :=
  ∃ row ∈ opcodeTable, ∃ arg, (encode i).head? = some row.opcode ∧
    (encode i).length = 1 + row.format.operands ∧ row.build arg = i

theorem noop : Statement .noop := ⟨_, .head _, 0#16, rfl, rfl, rfl⟩
theorem ld (t : Address) : Statement (.ld t) := ⟨_, .tail _ (.head _), t, rfl, rfl, rfl⟩
theorem st (t : Address) : Statement (.st t) := ⟨_, .tail _ (.tail _ (.head _)), t, rfl, rfl, rfl⟩
theorem add (t : Address) : Statement (.add t) := ⟨⟨"Add", 0x0003#16, .a, .add⟩, by simp [opcodeTable], t, rfl, rfl, rfl⟩
theorem neg : Statement .neg := ⟨⟨"Neg", 0x0004#16, .z, fun _ => .neg⟩, by simp [opcodeTable], 0#16, rfl, rfl, rfl⟩
theorem mul (t : Address) : Statement (.mul t) := ⟨⟨"Mul", 0x0005#16, .a, .mul⟩, by simp [opcodeTable], t, rfl, rfl, rfl⟩
theorem div (t : Address) : Statement (.div t) := ⟨⟨"Div", 0x0006#16, .a, .div⟩, by simp [opcodeTable], t, rfl, rfl, rfl⟩
theorem eq (t : Address) : Statement (.eq t) := ⟨⟨"Eq", 0x0007#16, .a, .eq⟩, by simp [opcodeTable], t, rfl, rfl, rfl⟩
theorem gt (t : Address) : Statement (.gt t) := ⟨⟨"Gt", 0x0008#16, .a, .gt⟩, by simp [opcodeTable], t, rfl, rfl, rfl⟩
theorem not : Statement .not := ⟨⟨"Not", 0x0009#16, .z, fun _ => .not⟩, by simp [opcodeTable], 0#16, rfl, rfl, rfl⟩
theorem and (t : Address) : Statement (.and t) := ⟨⟨"And", 0x000A#16, .a, .and⟩, by simp [opcodeTable], t, rfl, rfl, rfl⟩
theorem or (t : Address) : Statement (.or t) := ⟨⟨"Or", 0x000B#16, .a, .or⟩, by simp [opcodeTable], t, rfl, rfl, rfl⟩
theorem jmp (t : Address) : Statement (.jmp t) := ⟨⟨"Jmp", 0x000C#16, .a, .jmp⟩, by simp [opcodeTable], t, rfl, rfl, rfl⟩
theorem jif (t : Address) : Statement (.jif t) := ⟨⟨"Jif", 0x000D#16, .a, .jif⟩, by simp [opcodeTable], t, rfl, rfl, rfl⟩
theorem sqrt : Statement .sqrt := ⟨⟨"Sqrt", opcSqrt, .z, fun _ => .sqrt⟩, by simp [opcodeTable], 0#16, rfl, rfl, rfl⟩
theorem halt : Statement .halt := ⟨⟨"Halt", 0x00FF#16, .z, fun _ => .halt⟩, by simp [opcodeTable], 0#16, rfl, rfl, rfl⟩

end Sys2Proof.Laws.OpcodeCell
end

