-- ==== Sys2Proof/Laws/Ports.lean ====
section
/-! SUPPORT. Everything a slave port and the master port answer, said once for each kind of request (R64). -/

namespace Sys2Proof.Machine

/-- Without a request no slave is selected. -/
@[simp] theorem slaveRequest_none_sel (b : Binding) : (slaveRequest b none).sel = false := rfl

/-- The lines of a slave port under a request. -/
@[simp] theorem slaveRequest_some (b : Binding) (r : MasterRequest) :
    slaveRequest b (some r) = { sel := slaveSelected b r, we := r.we, off := slaveOffset b r, wdata := r.wdata } := rfl

/-- The offset port of a selected slave carries the whole local offset. -/
theorem slaveOffset_toNat (b : Binding) (r : MasterRequest) : (slaveOffset b r).toNat = r.addr.toNat - b.range.start := by
  have := r.addr.isLt
  simp only [slaveOffset, BitVec.toNat_ofNat]
  omega

/-- A slave that is not selected is left alone. -/
theorem slaveAnswer_unselected {p : SlaveRequest} (h : p.sel = false) (sl : Slave) (s : State) :
    slaveAnswer sl p s = ({ rdata := 0#16, err := false }, s) := by
  simp [slaveAnswer, h]

/-- A selected slave answers a read as `slaveRead` does. -/
theorem slaveAnswer_read {p : SlaveRequest} (hs : p.sel = true) (hw : p.we = false) (sl : Slave) (s : State) :
    slaveAnswer sl p s = ({ rdata := (slaveRead sl p.off.toNat s).1.getD 0#16, err := (slaveRead sl p.off.toNat s).1.isNone },
      (slaveRead sl p.off.toNat s).2) := by
  simp [slaveAnswer, hs, hw]

/-- A selected slave answers a write as `slaveWrite` does. -/
theorem slaveAnswer_write {p : SlaveRequest} (hs : p.sel = true) (hw : p.we = true) (sl : Slave) (s : State) :
    slaveAnswer sl p s = ({ rdata := 0#16, err := !(slaveWrite sl p.off.toNat p.wdata s).1 },
      (slaveWrite sl p.off.toNat p.wdata s).2) := by
  simp [slaveAnswer, hs, hw]

/-- The master port's answer to an unmapped request. -/
theorem masterAnswer_unmapped {r : MasterRequest} {s : State} (h : resolve s.platform.bindings r.addr = none) :
    masterAnswer r s = ({ rdata := 0#16, err := 1 }, s) := by
  cases hw : r.we <;> simp [masterAnswer, hw, memRead, memWrite, h, errorCode]

/-- The master port's answer to a read that resolves to a slave. -/
theorem masterAnswer_read {r : MasterRequest} {s : State} {sl : Slave} {off : Nat} (hw : r.we = false)
    (h : resolve s.platform.bindings r.addr = some (sl, off)) :
    masterAnswer r s = ({ rdata := (slaveRead sl off s).1.getD 0#16, err := if (slaveRead sl off s).1.isNone then 2 else 0 },
      (slaveRead sl off s).2) := by
  obtain ⟨x, y, hq⟩ : ∃ x y, slaveRead sl off s = (x, y) := ⟨_, _, rfl⟩
  cases x <;> simp [masterAnswer, hw, memRead, h, hq, errorCode]

/-- The master port's answer to a write that resolves to a slave. -/
theorem masterAnswer_write {r : MasterRequest} {s : State} {sl : Slave} {off : Nat} (hw : r.we = true)
    (h : resolve s.platform.bindings r.addr = some (sl, off)) :
    masterAnswer r s = ({ rdata := 0#16, err := if (slaveWrite sl off r.wdata s).1 then 0 else 2 },
      (slaveWrite sl off r.wdata s).2) := by
  obtain ⟨x, y, hq⟩ : ∃ x y, slaveWrite sl off r.wdata s = (x, y) := ⟨_, _, rfl⟩
  cases x <;> simp [masterAnswer, hw, memWrite, h, hq, errorCode]

end Sys2Proof.Machine
end

