-- ==== Sys2Proof/Laws/Step.lean ====
section
/-! SUPPORT. Everything an execute stage and a fetch stage can do, said once, and the router on well-formed platforms. -/

namespace Sys2Proof.Machine

/-- An execute stage that completes: the cycle ends, FAULT, OC, Arg0 and the platform stay, RUN changes only for Halt, IA only for
a jump, RAM only in one cell inside the capacity. -/
structure Completes (i : Instr) (s t : State) : Prop where
  oc : t.oc = s.oc
  arg0 : t.arg0 = s.arg0
  stage : t.stage = .awaitingFetch
  fault : t.fault = s.fault
  platform : t.platform = s.platform
  run : t.run = s.run ∨ (i = .halt ∧ t.run = .halted)
  ia : t.ia = s.ia ∨ i = .jmp t.ia ∨ (i = .jif t.ia ∧ s.acc ≠ 0#16)
  ram : t.ram = s.ram ∨ ∃ addr off, i = .st addr ∧ resolve s.platform.bindings addr = some (.ram, off) ∧
    off < s.platform.ramCapacity ∧ t.ram = Memory.write s.ram off s.acc

/-- The causes of a fault in an execute stage (R228): the access failed, at its address, or an arithmetic case, with address 0. -/
def FaultCause (i : Instr) (s : State) (k : FaultKind) (a : Address) : Prop :=
  ((k = .busFault ∨ k = .slaveBoundsFault) ∧ ∃ r, dataRequest s.acc i = some r ∧ r.addr = a) ∨
  (k = .arithmeticFault ∧ a = 0#16 ∧ (i = .sqrt ∨ ∃ addr, i = .div addr))

/-- The two ends of a dereferencing instruction whose continuation writes Acc. -/
theorem withOperand_finish {i : Instr} {addr : Address} {s : State} {f : RegisterValue → State → RegisterValue}
    (hreq : dataRequest s.acc i = some { we := false, addr := addr, wdata := 0#16 })
    (hx : exec i s = withOperand addr s (fun a t => t.finishAcc (f a t))) :
    (∃ t, exec i s = .next t ∧ Completes i s t) ∨
    (∃ k a s', exec i s = .next (raiseFault k a s') ∧ SameCpu s s' ∧ s'.ram = s.ram ∧ FaultCause i s k a) := by
  rw [hx]
  obtain ⟨a, s', hr, h⟩ | ⟨k, s', hr, h⟩ := withOperand_cases addr s (fun a t => t.finishAcc (f a t))
  · obtain ⟨c, hram⟩ := memRead_ok_frame hr
    exact .inl ⟨_, h, ⟨c.oc, c.arg0, rfl, c.fault, c.platform, .inl c.run, .inl c.ia, .inl hram⟩⟩
  · obtain ⟨c, hram⟩ := memRead_error_frame hr
    refine .inr ⟨k, addr, s', h, c, hram, .inl ⟨?_, _, hreq, rfl⟩⟩
    obtain ⟨rfl, _⟩ | ⟨rfl, _⟩ | ⟨rfl, _⟩ := memRead_error hr <;> simp

/-- Everything an execute stage can do: it completes, or it raises one fault with none of its other effects. -/
theorem exec_cases (i : Instr) (s : State) :
    (∃ t, exec i s = .next t ∧ Completes i s t) ∨
    (∃ k a s', exec i s = .next (raiseFault k a s') ∧ SameCpu s s' ∧ s'.ram = s.ram ∧ FaultCause i s k a) := by
  cases i with
  | noop => exact .inl ⟨_, rfl, ⟨rfl, rfl, rfl, rfl, rfl, .inl rfl, .inl rfl, .inl rfl⟩⟩
  | neg => exact .inl ⟨_, rfl, ⟨rfl, rfl, rfl, rfl, rfl, .inl rfl, .inl rfl, .inl rfl⟩⟩
  | not => exact .inl ⟨_, rfl, ⟨rfl, rfl, rfl, rfl, rfl, .inl rfl, .inl rfl, .inl rfl⟩⟩
  | halt => exact .inl ⟨_, rfl, ⟨rfl, rfl, rfl, rfl, rfl, .inr ⟨rfl, rfl⟩, .inl rfl, .inl rfl⟩⟩
  | jmp addr => exact .inl ⟨_, rfl, ⟨rfl, rfl, rfl, rfl, rfl, .inl rfl, .inr (.inl rfl), .inl rfl⟩⟩
  | jif addr =>
    by_cases h : s.acc = 0#16
    · exact .inl ⟨s.endCycle, by simp [exec, execJif, nonZero, h], ⟨rfl, rfl, rfl, rfl, rfl, .inl rfl, .inl rfl, .inl rfl⟩⟩
    · exact .inl ⟨(s.setIa addr).endCycle, by simp [exec, execJif, nonZero, h],
        ⟨rfl, rfl, rfl, rfl, rfl, .inl rfl, .inr (.inr ⟨rfl, h⟩), .inl rfl⟩⟩
  | sqrt =>
    by_cases h : s.acc.toInt < 0
    · exact .inr ⟨.arithmeticFault, 0#16, s, by simp [exec, execSqrt, h], SameCpu.refl s, rfl, .inr ⟨rfl, rfl, .inl rfl⟩⟩
    · exact .inl ⟨s.finishAcc (aluSqrt s.acc), by simp [exec, execSqrt, h],
        ⟨rfl, rfl, rfl, rfl, rfl, .inl rfl, .inl rfl, .inl rfl⟩⟩
  | st addr =>
    obtain ⟨u, s', hw, h⟩ | ⟨k, s', hw, h⟩ := storeOperand_cases addr s.acc s
    · refine .inl ⟨_, h, ?_⟩
      obtain ⟨off, hres, hlt, rfl⟩ | ⟨d, off, _, _, rfl⟩ := memWrite_ok hw
      · exact ⟨rfl, rfl, rfl, rfl, rfl, .inl rfl, .inl rfl, .inr ⟨addr, off, rfl, hres, hlt, rfl⟩⟩
      · exact ⟨rfl, rfl, rfl, rfl, rfl, .inl rfl, .inl rfl, .inl rfl⟩
    · obtain ⟨c, hram⟩ := memWrite_error_frame hw
      refine .inr ⟨k, addr, s', h, c, hram, .inl ⟨?_, _, rfl, rfl⟩⟩
      obtain ⟨rfl, _⟩ | ⟨rfl, _⟩ | ⟨rfl, _⟩ := memWrite_error hw <;> simp
  | div addr =>
    obtain ⟨a, s', hr, h⟩ | ⟨k, s', hr, h⟩ := withOperand_cases addr s
        (fun a t => if a = 0#16 then raiseFault .arithmeticFault 0#16 t else t.finishAcc (aluDiv t.acc a))
    · obtain ⟨c, hram⟩ := memRead_ok_frame hr
      by_cases ha : a = 0#16
      · exact .inr ⟨.arithmeticFault, 0#16, s', by simpa [exec, execDiv, ha] using h, c, hram,
          .inr ⟨rfl, rfl, .inr ⟨addr, rfl⟩⟩⟩
      · exact .inl ⟨s'.finishAcc (aluDiv s'.acc a), by simpa [exec, execDiv, ha] using h,
          ⟨c.oc, c.arg0, rfl, c.fault, c.platform, .inl c.run, .inl c.ia, .inl hram⟩⟩
    · obtain ⟨c, hram⟩ := memRead_error_frame hr
      refine .inr ⟨k, addr, s', h, c, hram, .inl ⟨?_, _, rfl, rfl⟩⟩
      obtain ⟨rfl, _⟩ | ⟨rfl, _⟩ | ⟨rfl, _⟩ := memRead_error hr <;> simp
  | ld addr => exact withOperand_finish (f := fun a _ => a) rfl rfl
  | add addr => exact withOperand_finish (f := fun a t => aluAdd t.acc a) rfl rfl
  | mul addr => exact withOperand_finish (f := fun a t => aluMul t.acc a) rfl rfl
  | eq addr => exact withOperand_finish (f := fun a t => aluEq t.acc a) rfl rfl
  | gt addr => exact withOperand_finish (f := fun a t => aluGt t.acc a) rfl rfl
  | and addr => exact withOperand_finish (f := fun a t => aluAnd t.acc a) rfl rfl
  | or addr => exact withOperand_finish (f := fun a t => aluOr t.acc a) rfl rfl

/-- The fetch-opcode stage: the cell read goes to OC and IA advances, or the read faults at IA. -/
theorem fetchOpcodeStage_cases (s : State) :
    (∃ v s', memRead s.ia s = .ok v s' ∧
      fetchOpcodeStage s = ((s'.setOc v).setIa (nextAddress s.ia)).setStage .awaitingDecode) ∨
    (∃ k s', memRead s.ia s = .error k s' ∧ fetchOpcodeStage s = raiseFault k s.ia s') := by
  unfold fetchOpcodeStage
  cases h : memRead s.ia s with
  | ok v s' => exact .inl ⟨v, s', rfl, by simp only [(memRead_ok_frame h).1.ia]⟩
  | error k s' => exact .inr ⟨k, s', rfl, rfl⟩

/-- The fetch-operand stage: the cell read goes to Arg0 and IA advances, or the read faults at IA. -/
theorem fetchOperandStage_cases (s : State) :
    (∃ v s', memRead s.ia s = .ok v s' ∧
      fetchOperandStage s = ((s'.setArg0 v).setIa (nextAddress s.ia)).setStage .awaitingExecute) ∨
    (∃ k s', memRead s.ia s = .error k s' ∧ fetchOperandStage s = raiseFault k s.ia s') := by
  unfold fetchOperandStage
  cases h : memRead s.ia s with
  | ok v s' => exact .inl ⟨v, s', rfl, by simp only [toAddr_eq, (memRead_ok_frame h).1.ia]⟩
  | error k s' => exact .inr ⟨k, s', rfl, rfl⟩

/-- The decode stage: it raises InvalidInstruction, or goes on to the execute or the fetch-operand stage. -/
theorem decodeStage_cases (s : State) :
    (operandCount s.oc = none ∧ decodeStage s = raiseFault .invalidInstruction 0#16 s) ∨
    (operandCount s.oc = some 0 ∧ decodeStage s = s.setStage .awaitingExecute) ∨
    (∃ n, operandCount s.oc = some (n + 1) ∧ decodeStage s = s.setStage .awaitingOperand) := by
  unfold decodeStage
  rcases operandCount s.oc with _ | _ | n
  · exact .inl ⟨rfl, rfl⟩
  · exact .inr (.inl ⟨rfl, rfl⟩)
  · exact .inr (.inr ⟨n, rfl, rfl⟩)

/-- A running machine's step in each stage, and a stopped machine's. -/
theorem step_fetch {s : State} (hr : s.run = .running) (hs : s.stage = .awaitingFetch) :
    step s = .next (fetchOpcodeStage s) := by simp only [step, hr, hs]

theorem step_decode {s : State} (hr : s.run = .running) (hs : s.stage = .awaitingDecode) :
    step s = .next (decodeStage s) := by simp only [step, hr, hs]

theorem step_operand {s : State} (hr : s.run = .running) (hs : s.stage = .awaitingOperand) :
    step s = .next (fetchOperandStage s) := by simp only [step, hr, hs]

theorem step_execute {s : State} (hr : s.run = .running) (hs : s.stage = .awaitingExecute) :
    step s = executeStage s := by simp only [step, hr, hs]

theorem step_stopped {s : State} (h : s.run ≠ .running) : step s = .next s := by
  unfold step
  cases hr : s.run with
  | running => exact absurd hr h
  | halted => rfl
  | faulted => rfl

/-- The execute stage runs the instruction that OC and Arg0 stand for, or raises InvalidInstruction when there is none. -/
theorem executeStage_cases (s : State) :
    (∃ i, instrOf s.oc s.arg0 = some i ∧ executeStage s = exec i s) ∨
    (operandCount s.oc = none ∧ executeStage s = .next (raiseFault .invalidInstruction 0#16 s)) := by
  unfold executeStage
  cases h : instrOf s.oc s.arg0 with
  | some i => exact .inl ⟨i, rfl, rfl⟩
  | none =>
    refine .inr ⟨?_, rfl⟩
    have := instrOf_isSome s.oc s.arg0
    rw [h] at this
    simpa using this.symm

/-- Everything a step of a running machine can do: one of the four stages completes, or one fault is raised with no other effect
on the registers, STAGE, RAM and the platform, for a cause of the stage. -/
theorem step_cases {s t : State} (hr : s.run = .running) (h : step s = .next t) :
    (s.stage = .awaitingFetch ∧ ∃ v s', memRead s.ia s = .ok v s' ∧ t = ((s'.setOc v).setIa (nextAddress s.ia)).setStage .awaitingDecode) ∨
  (s.stage = .awaitingDecode ∧ operandCount s.oc = some 0 ∧ t = s.setStage .awaitingExecute) ∨
  (s.stage = .awaitingDecode ∧ (∃ n, operandCount s.oc = some (n+1)) ∧ t = s.setStage .awaitingOperand) ∨
  (s.stage = .awaitingOperand ∧ ∃ v s', memRead s.ia s = .ok v s' ∧ t = ((s'.setArg0 v).setIa (nextAddress s.ia)).setStage .awaitingExecute) ∨
  (s.stage = .awaitingExecute ∧ ∃ i, instrOf s.oc s.arg0 = some i ∧ exec i s = .next t ∧ Completes i s t) ∨
  (∃ k a s', t = raiseFault k a s' ∧ SameCpu s s' ∧ s'.ram = s.ram ∧
    ((s.stage = .awaitingFetch ∧ (k = .busFault ∨ k = .slaveBoundsFault) ∧ a = s.ia) ∨
     (s.stage = .awaitingDecode ∧ k = .invalidInstruction ∧ operandCount s.oc = none ∧ a = 0#16 ∧ s' = s) ∨
     (s.stage = .awaitingOperand ∧ (k = .busFault ∨ k = .slaveBoundsFault) ∧ a = s.ia) ∨
     (s.stage = .awaitingExecute ∧ ∃ i, instrOf s.oc s.arg0 = some i ∧ FaultCause i s k a ∧ exec i s = .next (raiseFault k a s')) ∨
     (s.stage = .awaitingExecute ∧ operandCount s.oc = none ∧ k = .invalidInstruction ∧ a = 0#16 ∧ s' = s))) := by
  cases hs : s.stage with
  | awaitingFetch =>
    rw [step_fetch hr hs] at h; cases h
    obtain ⟨v, s', hm, e⟩ | ⟨k, s', hm, e⟩ := fetchOpcodeStage_cases s
    · exact .inl ⟨rfl, v, s', hm, e⟩
    · refine .inr (.inr (.inr (.inr (.inr ⟨k, _, s', e, (memRead_error_frame hm).1, (memRead_error_frame hm).2, .inl ⟨rfl, memRead_error_kind hm, rfl⟩⟩))))
  | awaitingDecode =>
    rw [step_decode hr hs] at h; cases h
    obtain ⟨h0, e⟩ | ⟨h0, e⟩ | ⟨n, h0, e⟩ := decodeStage_cases s
    · exact .inr (.inr (.inr (.inr (.inr ⟨_, _, s, e, SameCpu.refl s, rfl, .inr (.inl ⟨rfl, rfl, h0, rfl, rfl⟩)⟩))))
    · exact .inr (.inl ⟨rfl, h0, e⟩)
    · exact .inr (.inr (.inl ⟨rfl, ⟨n, h0⟩, e⟩))
  | awaitingOperand =>
    rw [step_operand hr hs] at h; cases h
    obtain ⟨v, s', hm, e⟩ | ⟨k, s', hm, e⟩ := fetchOperandStage_cases s
    · exact .inr (.inr (.inr (.inl ⟨rfl, v, s', hm, e⟩)))
    · refine .inr (.inr (.inr (.inr (.inr ⟨k, _, s', e, (memRead_error_frame hm).1, (memRead_error_frame hm).2, .inr (.inr (.inl ⟨rfl, memRead_error_kind hm, rfl⟩))⟩))))
  | awaitingExecute =>
    rw [step_execute hr hs] at h
    obtain ⟨i, hi, e⟩ | ⟨h0, e⟩ := executeStage_cases s
    · rw [e] at h
      obtain ⟨t', e', hc⟩ | ⟨k, a, s', e', hc, hram, hf⟩ := exec_cases i s
      · rw [e'] at h; cases h
        exact .inr (.inr (.inr (.inr (.inl ⟨rfl, i, hi, e', hc⟩))))
      · rw [e'] at h; cases h
        exact .inr (.inr (.inr (.inr (.inr ⟨k, a, s', rfl, hc, hram, .inr (.inr (.inr (.inl ⟨rfl, i, hi, hf, e'⟩)))⟩))))
    · rw [e] at h; cases h
      exact .inr (.inr (.inr (.inr (.inr ⟨_, _, s, rfl, SameCpu.refl s, rfl, .inr (.inr (.inr (.inr ⟨rfl, h0, rfl, rfl, rfl⟩)))⟩))))

/-- The access of an execute stage is at the address in Arg0 (R51). -/
theorem dataRequest_addr {oc acc : RegisterValue} {arg0 : Address} {i : Instr} {r : MasterRequest}
    (h : instrOf oc arg0 = some i) (hr : dataRequest acc i = some r) : r.addr = arg0 := by
  rcases instrOf_cases h with h | h | h | h | h | h | h | h | h | h | h | h | h | h | h | h <;> obtain ⟨-, rfl⟩ := h <;>
    simp only [dataRequest, reduceCtorEq, Option.some.injEq] at hr <;> (subst hr; rfl)

/-- A resolved address lies in the range of a binding, at the offset from the range's start. -/
theorem resolve_some {bs : List Binding} {addr : Address} {sl : Slave} {off : Nat}
    (h : resolve bs addr = some (sl, off)) :
    ∃ b ∈ bs, b.slave = sl ∧ b.range.start ≤ addr.toNat ∧ addr.toNat < b.range.stop ∧ off = addr.toNat - b.range.start := by
  induction bs with
  | nil => cases h
  | cons b bs ih =>
    unfold resolve at h
    split at h
    · rename_i hc
      simp only [AddressRange.contains, Bool.and_eq_true, decide_eq_true_eq] at hc
      cases h
      exact ⟨b, by simp, rfl, hc.1, hc.2, rfl⟩
    · obtain ⟨c, hc, hrest⟩ := ih h
      exact ⟨c, by simp [hc], hrest⟩

/-- An unmapped address lies in no range. -/
theorem resolve_none {bs : List Binding} {addr : Address} :
    resolve bs addr = none ↔ ∀ b ∈ bs, b.range.contains addr.toNat = false := by
  induction bs with
  | nil => simp [resolve]
  | cons b bs ih =>
    unfold resolve
    cases hb : b.range.contains addr.toNat <;> simp [hb, ih]

end Sys2Proof.Machine
end

