-- ==== Sys2Proof/Tests/Slice0.lean ====
section
/-! SUPPORT. Tests whose expected results are the spec's own examples and vectors (95_test_vectors.md), and a witness for the hypotheses of each statement. -/

namespace Sys2Proof.Tests

open Sys2Proof Sys2Proof.Machine

/-! ## Well-formedness: each check refuses an ill-formed term -/

/-- T33: `start > end` (R54). -/
theorem test_range_reversed_refused : (AddressRange.mk 9 3).wellFormed = false := by decide
/-- R53: a bound beyond 65536. -/
theorem test_range_too_high_refused : (AddressRange.mk 0 65537).wellFormed = false := by decide
/-- T31: overlapping ranges (R56). -/
theorem test_overlap_refused :
    Platform.wellFormed ⟨16, [⟨⟨0, 16⟩, .ram⟩, ⟨⟨8, 24⟩, .peripheral 0⟩]⟩ = false := by decide
/-- R4: RAM_SIZE at most 65536. -/
theorem test_capacity_refused : Platform.wellFormed ⟨65537, []⟩ = false := by decide
/-- R235: a reversed range inside a platform. -/
theorem test_platform_with_reversed_range_refused : Platform.wellFormed ⟨16, [⟨⟨9, 3⟩, .ram⟩]⟩ = false := by decide
/-- R56: an empty range overlaps nothing. -/
theorem test_empty_range_overlaps_nothing :
    Platform.wellFormed ⟨16, [⟨⟨0, 16⟩, .ram⟩, ⟨⟨5, 5⟩, .peripheral 0⟩]⟩ = true := by decide
/-- R99: no operand is illegal. -/
theorem test_top_operand_well_formed : (Instr.ld 65535#16).wellFormed = true := by decide

/-! ## Values (S1, T1 to T10) -/

theorem test_wrap16 : wrap16 40000 = BitVec.ofInt 16 (-25536) ∧ (wrap16 40000).toInt = -25536 ∧ (wrap16 90000).toInt = 24464 ∧
    (wrap16 (-32769)).toInt = 32767 ∧ (wrap16 (-100000)).toInt = 31072 := by decide
theorem test_toAddr : (toAddr (wrap16 (-1))).toNat = 65535 ∧ (toAddr (wrap16 (-25536))).toNat = 40000 := by decide
theorem test_toReg : (toReg 40000#16).toInt = -25536 := by decide
theorem test_nextAddress_wraps : nextAddress 65535#16 = 0#16 := by decide
theorem test_isqrt : isqrt 0 = 0 ∧ isqrt 1 = 1 ∧ isqrt 99 = 9 ∧ isqrt 100 = 10 ∧ isqrt 32767 = 181 := by decide
theorem test_truncDiv : truncDiv 7 2 = 3 ∧ truncDiv (-7) 2 = -3 ∧ truncDiv (-1) 2 = 0 := by decide

/-! ## Decoding: the spec's encodings bit by bit (R91 to R94, T40 to T50) -/

theorem test_decode_noop : decode [0b0000000000000000#16] = .ok (.noop, []) := rfl
theorem test_decode_ld : decode [0b0000000000000001#16, 0b0000000000000101#16] = .ok (.ld 5#16, []) := rfl
theorem test_decode_st : decode [0b0000000000000010#16, 0b0000000000000110#16] = .ok (.st 6#16, []) := rfl
theorem test_decode_add : decode [0b0000000000000011#16, 0b1001110001000000#16] = .ok (.add 40000#16, []) := rfl
theorem test_decode_neg : decode [0b0000000000000100#16] = .ok (.neg, []) := rfl
theorem test_decode_mul : decode [0b0000000000000101#16, 0b0000000000011000#16] = .ok (.mul 24#16, []) := rfl
theorem test_decode_div : decode [0b0000000000000110#16, 0b0000000000011100#16] = .ok (.div 28#16, []) := rfl
theorem test_decode_eq : decode [0b0000000000000111#16, 0b1000000000000001#16] = .ok (.eq 32769#16, []) := rfl
theorem test_decode_gt : decode [0b0000000000001000#16, 0b0000000000001101#16] = .ok (.gt 13#16, []) := rfl
theorem test_decode_not : decode [0b0000000000001001#16] = .ok (.not, []) := rfl
theorem test_decode_and : decode [0b0000000000001010#16, 0b0000000000000001#16] = .ok (.and 1#16, []) := rfl
theorem test_decode_or : decode [0b0000000000001011#16, 0b0000000000000010#16] = .ok (.or 2#16, []) := rfl
theorem test_decode_jmp : decode [0b0000000000001100#16, 0b1111111111111111#16] = .ok (.jmp 65535#16, []) := rfl
theorem test_decode_jif : decode [0b0000000000001101#16, 0b0000000000001000#16] = .ok (.jif 8#16, []) := rfl
theorem test_decode_sqrt : decode [0b0000000011100001#16, 7#16] = .ok (.sqrt, [7#16]) := rfl
theorem test_decode_halt : decode [0b0000000011111111#16] = .ok (.halt, []) := rfl
/-- T46, T47, T50. -/
theorem test_decode_illegal :
    ([0x000E#16, 0x000F#16, 0x00E0#16, 0x00E2#16, 0x00FE#16, 0x0100#16, 0x01FF#16, 0xFF00#16, 0xFFFF#16, 0x8000#16,
      0xE100#16].map operandCount) = List.replicate 11 none := by decide
theorem test_decode_missing_operand : decode [0x0001#16] = .error (.missingOperand 1#16) := rfl
theorem test_decodeTableWord : decodeTableWord 16 1 = some (.ld 0#16) ∧ decodeTableWord 32 0x9C40000C = some (.jmp 40000#16) ∧
    decodeTableWord 16 0x000E = none := by decide
/-- R103: every mnemonic maps to exactly one opcode value. -/
theorem test_opcode_rows_distinct :
    (opcodeTable.map (fun r => r.opcode)).Nodup ∧ (opcodeTable.map (fun r => r.mnemonic)).Nodup ∧ opcodeTable.length = 16 := by
  decide

/-! ## The bus (T20 to T34): configuration A is RAM `[0,16)` and a peripheral `[16,32)` -/

def configA : Platform := vmLayout 16 [16]
def configB : Platform := vmLayout 8 [4, 2]
/-- T34: RAM of capacity 8 attached at `[0,16)`. -/
def shortRam : Platform := { ramCapacity := 8, bindings := [⟨⟨0, 16⟩, .ram⟩] }

theorem test_resolve_A : resolve configA.bindings 15#16 = some (.ram, 15) ∧
    resolve configA.bindings 16#16 = some (.peripheral 0, 0) ∧ resolve configA.bindings 20#16 = some (.peripheral 0, 4) ∧
    resolve configA.bindings 32#16 = none ∧ resolve configA.bindings 65535#16 = none := by decide
theorem test_resolve_B : resolve configB.bindings 11#16 = some (.peripheral 0, 3) ∧
    resolve configB.bindings 12#16 = some (.peripheral 1, 0) ∧ resolve configB.bindings 14#16 = none := by decide
/-- T31: the hand-built overlap is refused, and so is a layout beyond the address space (D17). -/
theorem test_build_refused : buildMachine 65536 [1] = .refused .platformRejected := by rfl

/-- A running machine of configuration A in an execute stage: Acc, and the cell at address 5. -/
def exState (acc cell : RegisterValue) : State :=
  { State.powerOn configA with acc := acc, arg0 := 5#16, stage := .awaitingExecute, ram := Memory.write [] 5 cell }

/-- The state of an outcome that is a next state. -/
def nextOf (r : Result) : State :=
  match r with
  | .next t => t
  | .fault _ => State.reset
  | .refused _ => State.reset

def accAfter (i : Instr) (acc cell : Int) : Int := (nextOf (exec i (exState (wrap16 acc) (wrap16 cell)))).acc.toInt
def faultAfter (i : Instr) (acc cell : Int) : FaultKind := (nextOf (exec i (exState (wrap16 acc) (wrap16 cell)))).fault.kind

/-! ## Instructions (T70 to T152): the cell is at address 5 -/

theorem test_noop : accAfter .noop (-5) 0 = -5 := by decide
theorem test_ld : accAfter (.ld 5) 7 (-32768) = -32768 := by decide
/-- T75: the cell holds the whole Acc. -/
theorem test_st : (nextOf (exec (.st 6) (exState (wrap16 (-3)) 0))).ramCell 6#16 = some 0xFFFD#16 := by decide
/-- T77: a store outside the map. -/
theorem test_st_unmapped : (nextOf (exec (.st 100) (exState 1 9))).fault = ⟨.busFault, 0, 0, 100⟩ := by decide
theorem test_add_wraps : accAfter (.add 5) 30000 10000 = -25536 ∧ accAfter (.add 5) (-32768) (-1) = 32767 := by decide
theorem test_neg : accAfter .neg 9 0 = -9 ∧ accAfter .neg (-32768) 0 = -32768 := by decide
theorem test_mul : accAfter (.mul 5) 182 182 = -32412 ∧ accAfter (.mul 5) (-3) 7 = -21 := by decide
theorem test_div : accAfter (.div 5) (-7) 2 = -3 ∧ accAfter (.div 5) 7 (-2) = -3 ∧ accAfter (.div 5) (-32768) (-1) = -32768 := by decide
theorem test_div_by_zero : faultAfter (.div 5) 7 0 = .arithmeticFault ∧ accAfter (.div 5) 7 0 = 7 := by decide
theorem test_sqrt : accAfter .sqrt 10 0 = 3 ∧ accAfter .sqrt 32760 0 = 180 ∧ accAfter .sqrt 32761 0 = 181 := by decide
theorem test_sqrt_negative : faultAfter .sqrt (-1) 0 = .arithmeticFault ∧ accAfter .sqrt (-32768) 0 = -32768 := by decide
theorem test_eq : accAfter (.eq 5) (-1) 65535 = 1 ∧ accAfter (.eq 5) 1 0 = 0 := by decide
theorem test_gt : accAfter (.gt 5) (-1) 0 = 0 ∧ accAfter (.gt 5) 32767 (-32768) = 1 ∧ accAfter (.gt 5) 5 5 = 0 := by decide
theorem test_not : accAfter .not 0 0 = 1 ∧ accAfter .not (-32768) 0 = 0 := by decide
theorem test_and : accAfter (.and 5) 2 4 = 1 ∧ accAfter (.and 5) 0 5 = 0 := by decide
/-- T151: the read is made although Acc decides the result. -/
theorem test_and_unmapped : (nextOf (exec (.and 32) (exState 0 0))).fault.kind = .busFault := by decide
theorem test_or : accAfter (.or 5) 2 4 = 1 ∧ accAfter (.or 5) 0 0 = 0 := by decide
theorem test_or_unmapped : (nextOf (exec (.or 32) (exState 1 0))).fault.kind = .busFault := by decide
theorem test_jmp : (nextOf (exec (.jmp 40000) (exState 0 0))).ia = 40000#16 := by decide
theorem test_jif : (nextOf (exec (.jif 3) (exState (wrap16 (-32768)) 0))).ia = 3#16 ∧
    (nextOf (exec (.jif 3) (exState 0 0))).ia = 0#16 := by decide
theorem test_halt : (nextOf (exec .halt (exState 9 0))).run = .halted ∧ (nextOf (exec .halt (exState 9 0))).fault = FaultRecord.clear := by
  decide
/-- P4: a store to a peripheral is the one access the peripheral receives, whatever it answers. -/
theorem test_st_peripheral : (exec (.st 20) (exState 1 0) : Result) =
    .next (if Config.peripheralAccepts 0 [] 4 1#16
      then ((exState 1 0).logAccess 0 (.write 4 1#16)).endCycle
      else raiseFault .slaveBoundsFault 20#16 ((exState 1 0).logAccess 0 (.write 4 1#16))) := by
  have hres : resolve (exState 1 0).platform.bindings 20#16 = some (.peripheral 0, 4) := by decide
  have hh : (exState 1 0).history 0 = [] := by decide
  show storeOperand 20#16 1#16 (exState 1 0) = _
  unfold storeOperand memWrite
  rw [hres]
  simp only [slaveWrite, hh]
  cases Config.peripheralAccepts 0 [] 4 1#16 <;> simp

/-! ## The stages (T60), each one step -/

/-- T60: cells `0: 0x0001, 1: 0x0005, 5: 0x002A`. -/
def t60 (stage : Stage) (ia oc arg0 : Address) : State :=
  { State.powerOn configA with stage := stage, ia := ia, oc := oc, arg0 := arg0, ram := [(0, 1#16), (1, 5#16), (5, 42#16)] }

theorem test_t60_fetch : step (t60 .awaitingFetch 0 0 0) = .next (t60 .awaitingDecode 1 1 0) := rfl
theorem test_t60_decode : step (t60 .awaitingDecode 1 1 0) = .next (t60 .awaitingOperand 1 1 0) := rfl
theorem test_t60_operand : step (t60 .awaitingOperand 1 1 0) = .next (t60 .awaitingExecute 2 1 5) := rfl
theorem test_t60_execute : step (t60 .awaitingExecute 2 1 5) = .next { t60 .awaitingFetch 2 1 5 with acc := 42 } := rfl
/-- S8, D22: an illegal opcode faults in decode with IA past it and STAGE held. -/
theorem test_illegal_opcode : step (t60 .awaitingDecode 1 0xE 0) =
    .next { t60 .awaitingDecode 1 0xE 0 with run := .faulted, fault := ⟨.invalidInstruction, 1, 0xE, 0⟩ } := rfl
/-- T169: the fetch after a jump to an unmapped target. -/
theorem test_fetch_unmapped : step (t60 .awaitingFetch 40000 0xC 40000) =
    .next { t60 .awaitingFetch 40000 0xC 40000 with run := .faulted, fault := ⟨.busFault, 40000, 0xC, 40000⟩ } := rfl
/-- T62. -/
theorem test_faulted_does_not_move : step { t60 .awaitingFetch 0 0 0 with run := .faulted } = .next { t60 .awaitingFetch 0 0 0 with run := .faulted } := rfl
/-- T186: RAM rejects offset 12. -/
theorem test_slave_bounds : (nextOf (exec (.ld 12) (State.powerOn shortRam))).fault = ⟨.slaveBoundsFault, 0, 0, 12⟩ := by decide
/-- T36: an inspection of an unmapped address is the host's error alone. -/
theorem test_inspect_unmapped : hostInspect 40 (t60 .awaitingFetch 0 0 0) = (.error (.inspectUnmapped 40), t60 .awaitingFetch 0 0 0) := rfl
/-- T204: an image is stored as `wrap16` of its integers. -/
theorem test_load : (nextOf (hostLoadProgram [65535, -1, 65537] (State.powerOn configA))).ram = [(0, 0xFFFF#16), (1, 0xFFFF#16), (2, 1#16)] := by
  decide
/-- T205. -/
theorem test_load_too_long : hostLoadProgram (List.replicate 17 0) (State.powerOn configA) = .refused .programTooLong := rfl
/-- S9: one full cycle of a lone Halt. -/
theorem test_lone_halt : (nextOf (runFullCycle { State.powerOn configA with ram := [(0, 0xFF#16)] })).run = .halted ∧
    (nextOf (runFullCycle { State.powerOn configA with ram := [(0, 0xFF#16)] })).ia = 1#16 := by decide
/-- R27, R28, R220: the codes on the host port. -/
theorem test_host_port_codes : [Stage.awaitingFetch, .awaitingDecode, .awaitingOperand, .awaitingExecute].map Stage.code = [0, 1, 2, 3] ∧
    [RunState.running, .halted, .faulted].map RunState.code = [0, 1, 2] ∧
    [FaultKind.none, .invalidInstruction, .busFault, .slaveBoundsFault, .arithmeticFault].map FaultKind.code = [0, 1, 2, 3, 4] := by
  decide
/-- The first instruction after reset: `Jmp 5` placed by the host's word, and an illegal one. -/
theorem test_withFetchWord : (nextOf (step (State.reset.withFetchWord 32 0x0005000C))).ia = 5#16 ∧
    (nextOf (step (State.reset.withFetchWord 16 0x000E))).fault.kind = .invalidInstruction := by decide

/-! ## Witnesses: each statement's hypotheses are met, one theorem a statement, clause by clause -/

theorem witness_WrapIsTheUniqueCongruentRegisterValue : IsWrap16 40000 (-25536) ∧ IsWrap16 32767 32767 ∧ IsWrap16 32768 (-32768) :=
  ⟨by unfold IsWrap16; omega, by unfold IsWrap16; omega, by unfold IsWrap16; omega⟩
theorem witness_NextAddressAddsOneAndWrapsAtTheTop : (65534#16).toNat < 65535 ∧ (65535#16).toNat = 65535 := by decide
theorem witness_DecodeAndEncodeAgree : (Instr.st 65535#16).wellFormed = true ∧
    decode [2#16, 65535#16, 9#16] = .ok (.st 65535#16, [9#16]) := ⟨rfl, rfl⟩
theorem witness_OperandCountOfEveryOpcodeCell : operandCount 0x0D#16 = some 1 ∧ operandCount 0xE1#16 = some 0 := by decide
theorem witness_IllegalOpcodeCellsFaultInDecode : ∃ s s' : State, s.run = .running ∧ s.stage = .awaitingDecode ∧
    operandCount s.oc = none ∧ s'.run = .running ∧ s'.stage = .awaitingDecode ∧ operandCount s'.oc ≠ none :=
  ⟨t60 .awaitingDecode 1 0xE 0, t60 .awaitingDecode 1 0xD 0, by decide⟩
theorem witness_NoopChangesNothing : ∃ s s' : State, s.run = .running ∧ s.stage = .awaitingFetch ∧
    memRead s.ia s = .ok 0x0000#16 s' := ⟨t60 .awaitingFetch 2 0 0, _, rfl, rfl, rfl⟩
theorem witness_HaltStopsTheMachineCleanly : ∃ s s' : State, s.run = .running ∧ s.stage = .awaitingFetch ∧
    memRead s.ia s = .ok 0x00FF#16 s' := ⟨{ State.powerOn configA with ram := [(0, 0xFF#16)] }, _, rfl, rfl, rfl⟩
/-- For the seven statements of the form `LoadingRule` and for Div: a read that answers, a read of 0, an unmapped and a rejected one. -/
theorem witness_LoadingRule : (∃ s', memRead 5 (exState 7 2) = .ok 2#16 s') ∧ (∃ s', memRead 5 (exState 7 0) = .ok 0#16 s') ∧
    (∃ s', memRead 32 (exState 7 2) = .error .busFault s') ∧
    (∃ s', memRead 8 (State.powerOn shortRam) = .error .slaveBoundsFault s') ∧ (2#16 : RegisterValue) ≠ 0#16 :=
  ⟨⟨_, rfl⟩, ⟨_, rfl⟩, ⟨_, rfl⟩, ⟨_, rfl⟩, by decide⟩
theorem witness_StWritesAccToTheCell : (∃ u s', memWrite 15 (exState 7 2).acc (exState 7 2) = .ok u s') ∧
    (Memory.wf (exState 7 2).ram = true ∧ (exState 7 2).ramCell 5#16 = some 2#16 ∧
      resolve (exState 7 2).platform.bindings 15#16 ≠ resolve (exState 7 2).platform.bindings 5#16) ∧
    resolve (exState 7 2).platform.bindings 16#16 = some (.peripheral 0, 0) ∧
    (∃ s', memWrite 32 (exState 7 2).acc (exState 7 2) = .error .busFault s') :=
  ⟨⟨_, _, rfl⟩, by decide, by decide, ⟨_, rfl⟩⟩
theorem witness_SqrtWritesTheIntegerSquareRoot : 0 ≤ (exState 0 0).acc.toInt ∧ (exState (wrap16 (-1)) 0).acc.toInt < 0 := by decide
theorem witness_acc_zero_and_not_zero : (exState 0 0).acc = 0#16 ∧ (exState 0x8000 0).acc ≠ 0#16 := by decide
theorem witness_InstructionsWithoutAccessFrame : (∃ t, exec .noop (exState 7 2) = .next t) ∧ (∃ t, exec (.jif 3) (exState 7 2) = .next t) ∧
    (∃ t, exec .halt (exState 7 2) = .next t) ∧ (∃ t, exec .sqrt (exState 0xFFFF 2) = .next t) :=
  ⟨⟨_, rfl⟩, ⟨_, rfl⟩, ⟨_, rfl⟩, ⟨_, rfl⟩⟩
theorem witness_LoadingInstructionsFrame : (∃ t, exec (.add 5) (exState 7 2) = .next t) ∧ (∃ t, exec (.div 5) (exState 7 0) = .next t) ∧
    (∃ t, exec (.ld 32) (exState 7 2) = .next t) := ⟨⟨_, rfl⟩, ⟨_, rfl⟩, ⟨_, rfl⟩⟩
theorem witness_StFrame : (∃ t, exec (.st 5) (exState 7 2) = .next t) ∧ (∃ t, exec (.st 32) (exState 7 2) = .next t) ∧
    (resolve (exState 7 2).platform.bindings 4#16 ≠ resolve (exState 7 2).platform.bindings 5#16) ∧
    (∀ off, resolve (exState 7 2).platform.bindings 32#16 ≠ some (.ram, off)) :=
  ⟨⟨_, rfl⟩, ⟨_, rfl⟩, by decide, fun off h => by cases h⟩
theorem witness_FetchOpcodeStageReadsThenAdvances : (t60 .awaitingFetch 0 0 0).run = .running ∧
    (∃ v s', memRead 0 (t60 .awaitingFetch 0 0 0) = .ok v s') ∧ (∃ k s', memRead 32 (t60 .awaitingFetch 32 0 0) = .error k s') :=
  ⟨rfl, ⟨_, _, rfl⟩, ⟨_, _, rfl⟩⟩
theorem witness_DecodeStageChoosesTheNextStage : operandCount (t60 .awaitingDecode 1 0xE 0).oc = none ∧
    operandCount (t60 .awaitingDecode 1 1 0).oc = some 1 ∧ operandCount (t60 .awaitingDecode 1 4 0).oc = some 0 := by decide
theorem witness_FetchOperandStageLoadsArg0 : (∃ v s', memRead 1 (t60 .awaitingOperand 1 1 0) = .ok v s') ∧
    (∃ k s', memRead 32 (t60 .awaitingOperand 32 1 0) = .error k s') := ⟨⟨_, _, rfl⟩, ⟨_, _, rfl⟩⟩
theorem witness_StepRunsTheDecodedInstruction :
    instrOf (t60 .awaitingExecute 2 1 5).oc (t60 .awaitingExecute 2 1 5).arg0 = some (.ld 5#16) ∧
    ((t60 .awaitingFetch 2 0 0).ramCell 2#16 = some 0#16 ∧ decode [0#16] = .ok (.noop, [])) ∧
    ((t60 .awaitingFetch 0 0 0).ramCell 0#16 = some 1#16 ∧ (t60 .awaitingFetch 0 0 0).ramCell (nextAddress 0#16) = some 5#16 ∧
      decode [1#16] = .error (.missingOperand 1#16) ∧ decode [1#16, 5#16] = .ok (.ld 5#16, [])) :=
  ⟨by decide, ⟨by decide, rfl⟩, by decide, by decide, rfl, rfl⟩
theorem witness_StoppedMachineDoesNotMove : ∃ s : State, s.run ≠ .running ∧ StepsTo 2 s s :=
  ⟨{ t60 .awaitingFetch 0 0 0 with run := .halted }, by decide, ⟨_, rfl, ⟨_, rfl, rfl⟩⟩⟩
/-- For StageTransitionTable, FaultLeavesRegistersStageRamAndPlatform and FaultTable: a completing and a faulting step in each stage. -/
theorem witness_steps_of_each_stage :
    (∃ t, step (t60 .awaitingFetch 0 0 0) = .next t ∧ t.run = .running) ∧ (∃ t, step (t60 .awaitingFetch 32 0 0) = .next t ∧ t.run = .faulted) ∧
    (∃ t, step (t60 .awaitingDecode 1 1 0) = .next t ∧ t.run = .running) ∧ (∃ t, step (t60 .awaitingDecode 1 0xE 0) = .next t ∧ t.run = .faulted) ∧
    (∃ t, step (t60 .awaitingOperand 1 1 0) = .next t ∧ t.run = .running) ∧ (∃ t, step (t60 .awaitingOperand 32 1 0) = .next t ∧ t.run = .faulted) ∧
    (∃ t, step (t60 .awaitingExecute 2 1 5) = .next t ∧ t.run = .running) ∧ (∃ t, step (t60 .awaitingExecute 2 1 32) = .next t ∧ t.run = .faulted) ∧
    (∃ t, step (t60 .awaitingExecute 2 6 4) = .next t ∧ t.fault.kind = .arithmeticFault) ∧
    (∃ t, step (t60 .awaitingExecute 2 0xE 4) = .next t ∧ t.fault.kind = .invalidInstruction) :=
  ⟨⟨_, rfl, rfl⟩, ⟨_, rfl, rfl⟩, ⟨_, rfl, rfl⟩, ⟨_, rfl, rfl⟩, ⟨_, rfl, rfl⟩, ⟨_, rfl, rfl⟩, ⟨_, rfl, rfl⟩, ⟨_, rfl, rfl⟩, ⟨_, rfl, rfl⟩,
    ⟨_, rfl, rfl⟩⟩
theorem witness_FullCycleEndsAtABoundary : (t60 .awaitingFetch 0 0 0).run = .running ∧ (t60 .awaitingExecute 2 1 5).run = .running := by decide
theorem witness_RunEndsCleanlyFaultedOrGoesOn :
    (∃ t, runCycles 1 { State.powerOn configA with ram := [(0, 0xFF#16)] } = .next t ∧ t.cleanEnd) ∧
    (∃ t, runCycles 1 { State.powerOn configA with ram := [(0, 0xE#16)] } = .next t ∧ t.faultedEnd) :=
  ⟨⟨_, rfl, rfl⟩, ⟨_, rfl, rfl⟩⟩
/-- Each register does change in the stage that writes it. -/
theorem witness_RegistersAreWrittenOnlyByTheirWriters :
    (∃ t, step (t60 .awaitingFetch 0 0 0) = .next t ∧ t.oc ≠ 0#16 ∧ t.ia ≠ 0#16) ∧
    (∃ t, step (t60 .awaitingOperand 1 1 0) = .next t ∧ t.arg0 ≠ 0#16) ∧
    (∃ t, step (t60 .awaitingExecute 2 1 5) = .next t ∧ t.acc ≠ 0#16) ∧
    (∃ t, step (t60 .awaitingExecute 2 0xC 5) = .next t ∧ t.ia = 5#16) ∧
    (∃ t, step (t60 .awaitingExecute 2 0xFF 5) = .next t ∧ t.run = .halted) :=
  ⟨⟨_, rfl, by decide, by decide⟩, ⟨_, rfl, by decide⟩, ⟨_, rfl, by decide⟩, ⟨_, rfl, rfl⟩, ⟨_, rfl, rfl⟩⟩
theorem witness_StepMakesExactlyItsOneAccess : (∃ t, step (t60 .awaitingExecute 2 2 5) = .next t) ∧
    nextRequest (t60 .awaitingExecute 2 2 5) = some ⟨true, 5#16, 0#16⟩ ∧ nextRequest (t60 .awaitingDecode 1 1 0) = none :=
  ⟨⟨_, rfl⟩, by decide, by decide⟩
theorem witness_ExecuteIgnoresIaAndFaultRecord : ∃ t t', exec (.add 5) (exState 7 2) = .next t ∧
    exec (.add 5) { exState 7 2 with ia := 9#16, fault := ⟨.busFault, 1, 2, 3⟩ } = .next t' := ⟨_, _, rfl, rfl⟩
theorem witness_platforms_well_formed : configA.wellFormed = true ∧ configB.wellFormed = true ∧ shortRam.wellFormed = true := by decide
theorem witness_ResolveFindsTheOneRange : (∃ b ∈ configB.bindings, b.range.start ≤ (12#16).toNat ∧ (12#16).toNat < b.range.stop) ∧
    resolve configB.bindings 14#16 = none := by decide
theorem witness_AtMostOneSlaveIsSelected : configB.bindings.reverse.Perm configB.bindings ∧
    ∃ b ∈ configB.bindings, slaveSelected b ⟨false, 13#16, 0#16⟩ = true := ⟨List.reverse_perm _, by decide⟩
/-- A selected slave that answers a read and one that rejects it (`S_ERR_i`, T34), and an address that selects none. -/
theorem witness_SlavePortAnswersTheMasterPort : (exState 7 2).platform.wellFormed = true ∧ shortRam.wellFormed = true ∧
    slaveAnswer .ram (slaveRequest ⟨⟨0, 16⟩, .ram⟩ (some ⟨false, 5#16, 0#16⟩)) (exState 7 2) = (⟨2#16, false⟩, exState 7 2) ∧
    (slaveAnswer .ram (slaveRequest ⟨⟨0, 16⟩, .ram⟩ (some ⟨false, 12#16, 0#16⟩)) (State.powerOn shortRam)).1.err = true ∧
    (slaveRequest ⟨⟨16, 32⟩, .peripheral 0⟩ (some ⟨true, 20#16, 9#16⟩)) = ⟨true, true, 4#16, 9#16⟩ ∧
    (∀ b ∈ (exState 7 2).platform.bindings, (slaveRequest b (some ⟨false, 32#16, 0#16⟩)).sel = false) := by decide
/-- For BusReadRule and BusWriteReachesOneSlave: every kind of resolution, at the edges of the ranges. -/
theorem witness_bus_rules : resolve (exState 7 2).platform.bindings 32#16 = none ∧
    resolve (exState 7 2).platform.bindings 15#16 = some (.ram, 15) ∧ 15 < (exState 7 2).platform.ramCapacity ∧
    resolve (State.powerOn shortRam).platform.bindings 8#16 = some (.ram, 8) ∧ (State.powerOn shortRam).platform.ramCapacity ≤ 8 ∧
    resolve (exState 7 2).platform.bindings 31#16 = some (.peripheral 0, 15) ∧ Memory.wf (exState 7 2).ram = true ∧
    Memory.wf (State.powerOn shortRam).ram = true := by decide
theorem witness_ReadAfterWriteGivesTheValueWritten : Memory.wf (exState 7 2).ram = true ∧ ((exState 7 2).ramCell 5#16).isSome = true ∧
    (∃ u s', memWrite 5 0 (exState 7 2) = .ok u s') ∧
    resolve (exState 7 2).platform.bindings 0#16 ≠ resolve (exState 7 2).platform.bindings 5#16 :=
  ⟨by decide, by decide, ⟨_, _, rfl⟩, by decide⟩
/-- P6: St 4 overwrites the cell fetched next. -/
theorem witness_StoreIsSeenByTheNextFetch : ∃ s t : State, Memory.wf s.ram = true ∧ s.run = .running ∧ s.stage = .awaitingExecute ∧
    s.oc = 0x0002#16 ∧ s.arg0 = s.ia ∧ (s.ramCell s.ia).isSome = true ∧ step s = .next t :=
  ⟨{ t60 .awaitingExecute 4 2 4 with acc := 0xFF }, _, by decide, rfl, rfl, rfl, rfl, by decide, rfl⟩
theorem witness_VmLayoutPlacesRamThenPeripherals : 65536 < 65536 + [1].sum ∧ 8 + [4, 2].sum ≤ 65536 ∧ (7#16).toNat < 8 ∧
    ([4, 2] : List Nat)[1]? = some 2 ∧ 8 + (([4, 2] : List Nat).take 1).sum ≤ (12#16).toNat ∧
    (12#16).toNat < 8 + (([4, 2] : List Nat).take 1).sum + 2 ∧ 8 + [4, 2].sum ≤ (14#16).toNat := by decide
theorem witness_RamAlwaysAnswersInTheVmLayout : (exState 7 2).platform = vmLayout 16 [16] ∧
    resolve (exState 7 2).platform.bindings 15#16 = some (.ram, 15) := by decide
theorem witness_ResetsRestoreTheResetValues : ((exState 7 2).ramCell 5#16).isSome = true := by decide
theorem witness_LoadProgramWritesTheImageFromZero : Memory.wf (State.powerOn configA).ram = true ∧
    (State.powerOn configA).stage = .awaitingFetch ∧ ([1, 5, 2] : List Int).length ≤ (State.powerOn configA).platform.ramCapacity ∧
    ([1, 5, 2] : List Int)[2]? = some 2 ∧ (State.powerOn configA).platform.ramCapacity < (List.replicate 17 (0 : Int)).length ∧
    (exState 7 2).stage ≠ .awaitingFetch := by decide
theorem witness_InspectionReadsThroughTheBus : (exState 7 2).ramCell 5#16 = some 2#16 ∧ (∃ v s', memRead 5 (exState 7 2) = .ok v s') ∧
    resolve (exState 7 2).platform.bindings 32#16 = none ∧
    (∃ s', memRead 12 (State.powerOn shortRam) = .error .slaveBoundsFault s') := ⟨by decide, ⟨_, _, rfl⟩, by decide, _, rfl⟩
/-- P5b in its smallest instance: no RAM at all. -/
theorem witness_EmptyRamRunsNoopsThenBusFaults : 0 < 65536 ∧ ∃ t, StepsTo (3 * 0 + 1) (State.powerOn (vmLayout 0 [])) t ∧
    t.fault = ⟨.busFault, 0, 0, 0⟩ := ⟨by decide, _, ⟨_, rfl, rfl⟩, rfl⟩
theorem witness_FetchWordIsReachedByTheStages : State.reset.run = .running ∧ State.reset.stage = .awaitingFetch ∧
    State.reset.fault = FaultRecord.clear ∧ tableCells 32 0x0005000C = (0xC#16, 5#16) ∧
    (placeCell 1 5#16 (placeCell 0 0xC#16 State.reset)).ramCell 0#16 = some 0xC#16 ∧
    (placeCell 1 5#16 (placeCell 0 0xC#16 State.reset)).ramCell 1#16 = some 5#16 ∧
    operandCount 0xC#16 = some 1 ∧ operandCount 0#16 = some 0 ∧ operandCount 0xE#16 = none := by decide
theorem witness_ResetMeetsTheInvariant : ∃ s, buildPlatform shortRam = .next s := ⟨_, rfl⟩
/-- For the three invariant statements: a state in the middle of a cycle meets the invariant and steps on. -/
theorem witness_invariant : (t60 .awaitingExecute 2 1 5).Inv ∧ (∃ t, step (t60 .awaitingExecute 2 1 5) = .next t) ∧
    (∃ t, hostCommand (.inspect 0) (t60 .awaitingExecute 2 1 5) = .next t) :=
  ⟨⟨by decide, by decide, by decide, by decide, by decide, by decide, (fun h => by cases h), by decide⟩, ⟨_, rfl⟩, ⟨_, rfl⟩⟩
theorem witness_RunsNeverRebindForgetOrResume : ∃ s t : State, StepsTo 1 s t ∧ s.run ≠ .running :=
  ⟨{ t60 .awaitingFetch 0 0 0 with run := .faulted }, _, ⟨_, rfl, rfl⟩, by decide⟩

end Sys2Proof.Tests
end

/-! SUPPORT. The value conversions of R7 and R9 settled: `wrap16` as the one congruent value in range, and the two conversions
between a RegisterValue and an Address as one bit pattern. -/

namespace Sys2Proof.Machine

/-- `wrap16(i)` is in range and congruent to `i`: it is the balanced remainder. -/
theorem isWrap16_wrap16 (i : Int) : IsWrap16 i (wrap16 i).toInt := by
  have hlow : -32768 ≤ (wrap16 i).toInt := BitVec.le_toInt _
  have hhigh : (wrap16 i).toInt < 32768 := BitVec.toInt_lt
  have hdvd : (65536 : Int) ∣ (wrap16 i).toInt - i := by
    rw [toInt_wrap16]
    exact Int.dvd_bmod_sub_self
  exact ⟨hlow, by omega, hdvd⟩

/-- Two values in range that are congruent to one integer differ by a multiple of 65536 smaller than 65536. -/
theorem IsWrap16.unique {i r r' : Int} (h : IsWrap16 i r) (h' : IsWrap16 i r') : r = r' := by
  obtain ⟨hlow, hhigh, hdvd⟩ := h
  obtain ⟨hlow', hhigh', hdvd'⟩ := h'
  omega

/-- R7 as one equivalence: `IsWrap16 i` holds of `wrap16(i)` and of no other integer. -/
theorem isWrap16_iff {i r : Int} : IsWrap16 i r ↔ r = (wrap16 i).toInt :=
  ⟨fun h => h.unique (isWrap16_wrap16 i), fun h => h ▸ isWrap16_wrap16 i⟩

/-- The unsigned reading of a RegisterValue's pattern is its signed reading modulo 65536 (R9). -/
theorem toAddr_toNat_eq_toInt_emod (v : RegisterValue) : ((toAddr v).toNat : Int) = v.toInt % 65536 := by
  have hlt : v.toNat < 65536 := v.isLt
  calc ((toAddr v).toNat : Int) = (v.toNat : Int) % 65536 := by rw [toAddr_eq]; omega
    _ = (v.toNat : Int).bmod 65536 % 65536 := (Int.bmod_emod (m := 65536)).symm
    _ = v.toInt % 65536 := by rw [BitVec.toInt_eq_toNat_bmod]

/-- Settles O1: the range and the congruence are those of the balanced remainder, and two congruent values in range are equal. -/
theorem wrapIsTheUniqueCongruentRegisterValue : Obligations.WrapIsTheUniqueCongruentRegisterValue :=
  fun i => ⟨isWrap16_wrap16 i, fun _ => isWrap16_iff.mp⟩

/-- Settles O2: both conversions keep the bit pattern, so each undoes the other; the integer clauses are R7's and R9's readings
of that pattern. -/
theorem addressAndRegisterValueShareTheirPattern : Obligations.AddressAndRegisterValueShareTheirPattern := by
  refine ⟨fun v => ⟨toAddr_toNat_eq_toInt_emod v, ?_, ?_⟩, fun a => ⟨isWrap16_wrap16 a.toNat, ?_, ?_⟩⟩
  · rw [toAddr_eq]
  · rw [toReg_eq, toAddr_eq]
  · rw [toReg_eq]
  · rw [toAddr_eq, toReg_eq]

end Sys2Proof.Machine

/-! SUPPORT. Family 10_state. What an execute stage does to each register and to memory, said once for every instruction;
the operand count and the opcode cell of a decoded instruction. -/

namespace Sys2Proof.Machine

/-! ## The decoded instruction and its opcode cell -/

/-- The instruction that OC and Arg0 stand for is encoded by OC alone (R91) or by OC and Arg0 (R92). -/
theorem encode_of_instrOf {oc : RegisterValue} {arg0 : Address} {i : Instr} (h : instrOf oc arg0 = some i) :
    encode i = [oc] ∨ encode i = [oc, arg0] := by
  obtain ⟨row, hrow, rfl⟩ := instrOf_some h
  obtain ⟨hmem, rfl⟩ := lookupOpcode_some hrow
  fin_cases hmem <;> simp [encode]

/-- OC is the opcode cell, the first cell of the encoding. -/
theorem opcode_of_instrOf {oc op : RegisterValue} {arg0 : Address} {i : Instr} (h : instrOf oc arg0 = some i)
    (hop : (encode i).head? = some op) : oc = op := by
  obtain he | he := encode_of_instrOf h <;> simpa [he] using hop

/-- A second cell of the encoding is Arg0. -/
theorem operand_of_instrOf {oc : RegisterValue} {arg0 operand : Address} {i : Instr} (h : instrOf oc arg0 = some i)
    (hop : (encode i)[1]? = some operand) : operand = arg0 := by
  obtain he | he := encode_of_instrOf h <;> simp only [he] at hop <;> cases hop
  rfl

/-- An opcode that takes an operand takes exactly one (R94). -/
theorem operandCount_succ {oc : RegisterValue} {n : Nat} (h : operandCount oc = some (n + 1)) :
    operandCount oc = some 1 := by
  obtain ⟨row, hrow, hn⟩ := Option.map_eq_some_iff.1 h
  cases hf : row.format with
  | z => simp [hf, Format.operands] at hn
  | a => simp [operandCount, hrow, hf, Format.operands]

/-- The instructions whose execute stage writes Acc when it completes (R25). -/
def writesAcc : Instr → Bool
  | .noop | .st _ | .jmp _ | .jif _ | .halt => false
  | .ld _ | .add _ | .neg | .mul _ | .div _ | .eq _ | .gt _ | .not | .and _ | .or _ | .sqrt => true

/-- The opcode cells of the writers of Acc (R25, R94). -/
theorem opcode_of_writesAcc {oc : RegisterValue} {arg0 : Address} {i : Instr} (h : instrOf oc arg0 = some i)
    (hw : writesAcc i = true) :
    oc ∈ [0x0001#16, 0x0003#16, 0x0004#16, 0x0005#16, 0x0006#16, 0x0007#16, 0x0008#16, 0x0009#16, 0x000A#16, 0x000B#16,
      0x00E1#16] := by
  cases i with
  | noop | st | jmp | jif | halt => cases hw
  | ld | add | neg | mul | div | eq | gt | not | and | or | sqrt => rw [opcode_of_instrOf h rfl]; decide

/-! ## What an execute stage does to each register and to memory -/

/-- Every execute stage leaves OC, Arg0 and the platform alone. -/
theorem exec_frame {i : Instr} {s t : State} (h : exec i s = .next t) :
    t.oc = s.oc ∧ t.arg0 = s.arg0 ∧ t.platform = s.platform := by
  obtain ⟨u, hu, c⟩ | ⟨k, a, s', hu, c, -, -⟩ := exec_cases i s <;> cases hu.symm.trans h <;>
    exact ⟨c.oc, c.arg0, c.platform⟩

/-- IA is written by a Jmp and a taken Jif alone. -/
theorem exec_ia {i : Instr} {s t : State} (h : exec i s = .next t) :
    t.ia = s.ia ∨ i = .jmp t.ia ∨ (i = .jif t.ia ∧ s.acc ≠ 0#16) := by
  obtain ⟨u, hu, c⟩ | ⟨k, a, s', hu, c, -, -⟩ := exec_cases i s <;> cases hu.symm.trans h
  · exact c.ia
  · exact .inl c.ia

/-- Acc is left alone by every instruction that is no writer of it. -/
theorem exec_acc {i : Instr} {s t : State} (hw : writesAcc i = false) (h : exec i s = .next t) : t.acc = s.acc := by
  cases i with
  | noop | jmp | halt => cases h; rfl
  | jif addr =>
    cases h
    split <;> rfl
  | st addr =>
    obtain ⟨u, s', hm, hu⟩ | ⟨k, s', hm, hu⟩ := storeOperand_cases addr s.acc s <;> cases hu.symm.trans h
    · exact (memWrite_ok_frame hm).acc
    · exact (memWrite_error_frame hm).1.acc
  | ld | add | neg | mul | div | eq | gt | not | and | or | sqrt => cases hw

/-- RAM is written by St alone, in the one cell inside RAM's capacity that its operand address resolves to. -/
theorem exec_ram {i : Instr} {s t : State} (h : exec i s = .next t) :
    t.ram = s.ram ∨ ∃ addr off, i = .st addr ∧ resolve s.platform.bindings addr = some (.ram, off) ∧
      off < s.platform.ramCapacity ∧ t.ram = Memory.write s.ram off s.acc := by
  obtain ⟨u, hu, c⟩ | ⟨k, a, s', hu, -, hram, -⟩ := exec_cases i s <;> cases hu.symm.trans h
  · exact c.ram
  · exact .inl hram

/-- RAM and the peripherals after an instruction are those that the request's one access leaves, or those of
`s` when there is no request (R51). -/
structure Accesses (req : Option MasterRequest) (s t : State) : Prop where
  ram : t.ram = (req.elim s fun r => (masterAnswer r s).2).ram
  deviceLog : t.deviceLog = (req.elim s fun r => (masterAnswer r s).2).deviceLog

/-- A dereferencing instruction makes the one read at its operand address, when what follows the read touches no memory. -/
theorem withOperand_accesses {addr : Address} {s t : State} {k : RegisterValue → State → State}
    (h : withOperand addr s k = .next t) (hk : ∀ a u, (k a u).ram = u.ram ∧ (k a u).deviceLog = u.deviceLog) :
    Accesses (some { we := false, addr := addr, wdata := 0#16 }) s t := by
  obtain ⟨a, s', hm, hu⟩ | ⟨kind, s', hm, hu⟩ := withOperand_cases addr s k <;> cases hu.symm.trans h
  · exact ⟨by simp [masterAnswer, hm, hk], by simp [masterAnswer, hm, hk]⟩
  · exact ⟨by simp [masterAnswer, hm], by simp [masterAnswer, hm]⟩

/-- A storing instruction makes the one write at its operand address. -/
theorem storeOperand_accesses {addr : Address} {v : RegisterValue} {s t : State} (h : storeOperand addr v s = .next t) :
    Accesses (some { we := true, addr := addr, wdata := v }) s t := by
  obtain ⟨u, s', hm, hu⟩ | ⟨kind, s', hm, hu⟩ := storeOperand_cases addr v s <;> cases hu.symm.trans h <;>
    exact ⟨by simp [masterAnswer, hm], by simp [masterAnswer, hm]⟩

/-- An execute stage makes exactly the access of its instruction (R51). -/
theorem exec_accesses {i : Instr} {s t : State} (h : exec i s = .next t) : Accesses (dataRequest s.acc i) s t := by
  cases i with
  | noop | neg | not | jmp | halt => cases h; exact ⟨rfl, rfl⟩
  | jif =>
    cases h
    split <;> exact ⟨rfl, rfl⟩
  | sqrt =>
    cases h
    split <;> exact ⟨rfl, rfl⟩
  | st => exact storeOperand_accesses h
  | div => exact withOperand_accesses h fun a u => by split <;> exact ⟨rfl, rfl⟩
  | ld | add | mul | eq | gt | and | or => exact withOperand_accesses h fun _ _ => ⟨rfl, rfl⟩

/-- A bus read leaves RAM alone and touches no peripheral but the one it resolves to (R58, R62). -/
theorem masterAnswer_read_frame {r : MasterRequest} (hw : r.we = false) (s : State) :
    (masterAnswer r s).2.ram = s.ram ∧
    ((masterAnswer r s).2.deviceLog = s.deviceLog ∨
      ∃ d off, resolve s.platform.bindings r.addr = some (.peripheral d, off) ∧
        (masterAnswer r s).2.deviceLog = ⟨d, .read off⟩ :: s.deviceLog) := by
  rcases hres : resolve s.platform.bindings r.addr with _ | ⟨_ | d, off⟩
  · rw [masterAnswer_unmapped hres]
    exact ⟨rfl, .inl rfl⟩
  · rw [masterAnswer_read hw hres]
    exact ⟨rfl, .inl rfl⟩
  · rw [masterAnswer_read hw hres]
    exact ⟨rfl, .inr ⟨d, off, rfl, rfl⟩⟩

/-- A bus write touches no peripheral but the one it resolves to (R59, R61). -/
theorem masterAnswer_write_deviceLog {r : MasterRequest} (hw : r.we = true) (s : State) :
    (masterAnswer r s).2.deviceLog = s.deviceLog ∨
      ∃ d off, resolve s.platform.bindings r.addr = some (.peripheral d, off) ∧
        (masterAnswer r s).2.deviceLog = ⟨d, .write off r.wdata⟩ :: s.deviceLog := by
  rcases hres : resolve s.platform.bindings r.addr with _ | ⟨_ | d, off⟩
  · rw [masterAnswer_unmapped hres]
    exact .inl rfl
  · rw [masterAnswer_write hw hres]
    by_cases hc : off < s.platform.ramCapacity <;> simp [slaveWrite, hc]
  · rw [masterAnswer_write hw hres]
    exact .inr ⟨d, off, rfl, rfl⟩

/-- An instruction that makes an access leaves IA alone; it completes with RUN and FAULT unchanged, or faults with STAGE, Acc and
RAM unchanged. -/
theorem exec_of_dataRequest {i : Instr} {s t : State} {r : MasterRequest} (hreq : dataRequest s.acc i = some r)
    (h : exec i s = .next t) :
    t.ia = s.ia ∧ ((t.stage = .awaitingFetch ∧ t.run = s.run ∧ t.fault = s.fault) ∨
      (t.stage = s.stage ∧ t.run = .faulted ∧ t.acc = s.acc ∧ t.ram = s.ram)) := by
  obtain ⟨u, hu, c⟩ | ⟨k, a, s', hu, c, hram, -⟩ := exec_cases i s <;> cases hu.symm.trans h
  · refine ⟨?_, .inl ⟨c.stage, ?_, c.fault⟩⟩
    · obtain hia | hia | ⟨hia, -⟩ := c.ia
      · exact hia
      · rw [hia] at hreq; cases hreq
      · rw [hia] at hreq; cases hreq
    · obtain hrun | ⟨rfl, -⟩ := c.run
      · exact hrun
      · cases hreq
  · exact ⟨c.ia, .inr ⟨c.stage, rfl, c.acc, hram⟩⟩

/-- Sqrt completes when Acc is not negative (R165). -/
theorem execSqrt_of_nonneg {s : State} (h : 0 ≤ s.acc.toInt) : execSqrt s = .next (s.finishAcc (aluSqrt s.acc)) := by
  rw [execSqrt, if_neg (not_lt.2 h)]

/-- An instruction that makes no access, other than Sqrt of a negative Acc, completes: nothing it does can raise a fault (R228). -/
theorem completes_of_no_access {i : Instr} {s t : State} (hreq : dataRequest s.acc i = none)
    (hsqrt : i ≠ .sqrt ∨ 0 ≤ s.acc.toInt) (h : exec i s = .next t) : Completes i s t := by
  obtain ⟨u, hu, c⟩ | ⟨k, a, s', hu, -, -, hcause⟩ := exec_cases i s
  · cases hu.symm.trans h
    exact c
  · obtain ⟨-, r, hr, -⟩ | ⟨-, -, rfl | ⟨addr, rfl⟩⟩ := hcause
    · cases hreq.symm.trans hr
    · have hnonneg : 0 ≤ s.acc.toInt := hsqrt.resolve_left (absurd rfl)
      cases (execSqrt_of_nonneg hnonneg).symm.trans h
      exact ⟨rfl, rfl, rfl, rfl, rfl, .inl rfl, .inl rfl, .inl rfl⟩
    · cases hreq

/-! ## The frames of the three forms of instruction -/

/-- Settles O24: none of the seven makes an access, so memory stays as it is; the registers follow from what a completing execute
stage changes and from the writers of Acc and IA. -/
theorem instructionsWithoutAccessFrame : Obligations.InstructionsWithoutAccessFrame := by
  intro i s t hi h
  have hreq : dataRequest s.acc i = none := by
    rcases hi with rfl | rfl | rfl | rfl | rfl | ⟨a, rfl | rfl⟩ <;> rfl
  obtain ⟨hoc, harg0, hplatform⟩ := exec_frame h
  obtain ⟨hram, hlog⟩ := hreq ▸ exec_accesses h
  refine ⟨hoc, harg0, hplatform, hlog, ramCell_congr hplatform hram, fun hacc => exec_acc ?_ h, fun hia => ?_,
    fun hsqrt => ?_⟩
  · rcases hacc with rfl | rfl | ⟨a, rfl | rfl⟩ <;> rfl
  · obtain hsame | hjmp | ⟨hjif, -⟩ := exec_ia h
    · exact hsame
    · simp [hjmp] at hia
    · simp [hjif] at hia
  · have c := completes_of_no_access hreq hsqrt h
    exact ⟨c.fault, c.stage, fun hhalt => c.run.resolve_right fun ⟨e, _⟩ => hhalt e⟩

/-- Settles O25: each of the eight makes one read at its operand address, and a read changes no RAM cell. -/
theorem loadingInstructionsFrame : Obligations.LoadingInstructionsFrame := by
  intro i addr s t hi h
  have hreq : dataRequest s.acc i = some { we := false, addr := addr, wdata := 0#16 } := by
    rcases hi with rfl | rfl | rfl | rfl | rfl | rfl | rfl | rfl <;> rfl
  obtain ⟨hoc, harg0, hplatform⟩ := exec_frame h
  obtain ⟨hia, hend⟩ := exec_of_dataRequest hreq h
  obtain ⟨hram, hlog⟩ := hreq ▸ exec_accesses h
  obtain ⟨hread, hreadLog⟩ := masterAnswer_read_frame (r := { we := false, addr := addr, wdata := 0#16 }) rfl s
  refine ⟨hia, hoc, harg0, hplatform, ramCell_congr hplatform (hram.trans hread), ?_, ?_⟩
  · exact hend.imp_right fun ⟨hstage, hrun, hacc, _⟩ => ⟨hstage, hrun, hacc⟩
  · rw [hlog]
    exact hreadLog

/-- Settles O26: St makes one write at its operand address, which reaches one RAM cell, one peripheral, or nothing. -/
theorem stFrame : Obligations.StFrame := by
  intro addr s t h
  obtain ⟨hoc, harg0, hplatform⟩ := exec_frame h
  obtain ⟨hia, hend⟩ := exec_of_dataRequest rfl h
  obtain ⟨-, hlog⟩ := exec_accesses h
  have hwriteLog := masterAnswer_write_deviceLog (r := { we := true, addr := addr, wdata := s.acc }) rfl s
  refine ⟨hia, hoc, harg0, exec_acc rfl h, hplatform, fun b hb => ?_, fun hno => ?_, ?_, ?_⟩
  · obtain hram | ⟨_, off, ⟨⟩, hres, -, hram⟩ := exec_ram h
    · exact ramCell_congr hplatform hram b
    · calc t.ramCell b = (s.setRam (Memory.write s.ram off s.acc)).ramCell b :=
          ramCell_congr (s := s.setRam (Memory.write s.ram off s.acc)) hplatform hram b
        _ = s.ramCell b := ramCell_write_other s.acc hres hb
  · obtain hram | ⟨_, off, ⟨⟩, hres, -, -⟩ := exec_ram h
    · exact ramCell_congr hplatform hram
    · exact absurd hres (hno off)
  · exact hend.imp_right fun ⟨hstage, hrun, _, hram⟩ => ⟨hstage, hrun, hram⟩
  · rw [hlog]
    exact hwriteLog

/-! ## The writers of each register -/

/-- Settles O38: a stopped machine writes nothing, a fault writes RUN and FAULT alone, and each stage writes its own registers. -/
theorem registersAreWrittenOnlyByTheirWriters : Obligations.RegistersAreWrittenOnlyByTheirWriters := by
  intro s t h
  by_cases hr : s.run = .running
  · obtain ⟨hs, v, s', hm, rfl⟩ | ⟨hs, -, rfl⟩ | ⟨hs, -, rfl⟩ | ⟨hs, v, s', hm, rfl⟩ | ⟨hs, i, hi, hx, c⟩ |
      ⟨k, a, s', rfl, c, -, -⟩ := step_cases hr h
    · have c := (memRead_ok_frame hm).1
      simp [hs, hr, c.arg0, c.acc, c.run, c.platform]
    · simp [hr]
    · simp [hr]
    · have c := (memRead_ok_frame hm).1
      simp [hs, hr, c.oc, c.acc, c.run, c.platform]
    · refine ⟨absurd c.oc, absurd c.arg0, fun hia => .inr (.inr ⟨hs, ?_⟩), fun hacc => ⟨hs, ?_⟩,
        fun hhalted => .inr ⟨hs, ?_⟩, c.platform⟩
      · obtain hsame | hjmp | ⟨hjif, htaken⟩ := exec_ia hx
        · exact absurd hsame hia
        · rw [hjmp] at hi
          exact ⟨operand_of_instrOf hi (by simp [encode]), .inl (opcode_of_instrOf hi rfl)⟩
        · rw [hjif] at hi
          exact ⟨operand_of_instrOf hi (by simp [encode]), .inr ⟨opcode_of_instrOf hi rfl, htaken⟩⟩
      · have hw : writesAcc i = true := by
          by_contra hw
          exact hacc (exec_acc (Bool.eq_false_iff.2 hw) hx)
        exact opcode_of_writesAcc hi hw
      · obtain hrun | ⟨rfl, -⟩ := c.run
        · rw [hrun, hr] at hhalted; cases hhalted
        · exact opcode_of_instrOf hi rfl
    · simp [c.ia, c.oc, c.arg0, c.acc, c.platform]
  · cases (step_stopped hr).symm.trans h
    exact ⟨absurd rfl, absurd rfl, absurd rfl, absurd rfl, .inl, rfl⟩

/-! ## IA and the FAULT record are not observed -/

/-- `s` with another IA and another FAULT record. -/
def State.withIaFault (s : State) (x : Address) (f : FaultRecord) : State := { s with ia := x, fault := f }

/-- The same answer of an access, in a state changed by `g`. -/
def Reply.mapState {α : Type} (g : State → State) : Reply α → Reply α
  | .ok v s => .ok v (g s)
  | .error k s => .error k (g s)

/-- A slave's answer to a read depends on RAM, the platform and the histories alone. -/
theorem slaveRead_withIaFault (sl : Slave) (off : Nat) (s : State) (x : Address) (f : FaultRecord) :
    slaveRead sl off (s.withIaFault x f) = (slaveRead sl off s).map id (·.withIaFault x f) := by
  cases sl <;> rfl

/-- A slave's answer to a write depends on RAM, the platform and the histories alone. -/
theorem slaveWrite_withIaFault (sl : Slave) (off : Nat) (v : RegisterValue) (s : State) (x : Address) (f : FaultRecord) :
    slaveWrite sl off v (s.withIaFault x f) = (slaveWrite sl off v s).map id (·.withIaFault x f) := by
  cases sl with
  | ram =>
    have hplatform : (s.withIaFault x f).platform = s.platform := rfl
    simp only [slaveWrite, hplatform]
    split <;> rfl
  | peripheral d => rfl

/-- A bus read does not see IA or the FAULT record, and keeps both. -/
theorem memRead_withIaFault (addr : Address) (s : State) (x : Address) (f : FaultRecord) :
    memRead addr (s.withIaFault x f) = (memRead addr s).mapState (·.withIaFault x f) := by
  have hplatform : (s.withIaFault x f).platform = s.platform := rfl
  simp only [memRead, hplatform, slaveRead_withIaFault]
  rcases resolve s.platform.bindings addr with _ | ⟨sl, off⟩
  · rfl
  · dsimp only
    rcases slaveRead sl off s with ⟨_ | v, s'⟩ <;> rfl

/-- A bus write does not see IA or the FAULT record, and keeps both. -/
theorem memWrite_withIaFault (addr : Address) (v : RegisterValue) (s : State) (x : Address) (f : FaultRecord) :
    memWrite addr v (s.withIaFault x f) = (memWrite addr v s).mapState (·.withIaFault x f) := by
  have hplatform : (s.withIaFault x f).platform = s.platform := rfl
  simp only [memWrite, hplatform, slaveWrite_withIaFault]
  rcases resolve s.platform.bindings addr with _ | ⟨sl, off⟩
  · rfl
  · dsimp only
    rcases slaveWrite sl off v s with ⟨_ | _, s'⟩ <;> rfl

/-- `g` acts alike on states that differ in IA and the FAULT record alone: the results differ in these two alone. -/
def IgnoresIaFault (g : State → State) : Prop :=
  ∀ u x f, ∃ x' f', g (u.withIaFault x f) = (g u).withIaFault x' f'

/-- Raising a fault records the IA it finds and overwrites the record. -/
theorem raiseFault_ignoresIaFault (k : FaultKind) (a : Address) : IgnoresIaFault (raiseFault k a) :=
  fun u x _ => ⟨x, { kind := k, ia := x, oc := u.oc, addr := a }, rfl⟩

/-- A dereferencing instruction ignores IA and the FAULT record when what follows its read does. -/
theorem withOperand_withIaFault {addr : Address} {s t : State} {k : RegisterValue → State → State}
    (h : withOperand addr s k = .next t) (hk : ∀ a, IgnoresIaFault (k a)) (x : Address) (f : FaultRecord) :
    ∃ x' f', withOperand addr (s.withIaFault x f) k = .next (t.withIaFault x' f') := by
  unfold withOperand
  rw [memRead_withIaFault]
  obtain ⟨a, s', hm, hu⟩ | ⟨kind, s', hm, hu⟩ := withOperand_cases addr s k <;> cases hu.symm.trans h <;> rw [hm]
  · obtain ⟨x', f', he⟩ := hk a s' x f
    exact ⟨x', f', congrArg _ he⟩
  · obtain ⟨x', f', he⟩ := raiseFault_ignoresIaFault kind addr s' x f
    exact ⟨x', f', congrArg _ he⟩

/-- A storing instruction ignores IA and the FAULT record. -/
theorem storeOperand_withIaFault {addr : Address} {v : RegisterValue} {s t : State} (h : storeOperand addr v s = .next t)
    (x : Address) (f : FaultRecord) :
    ∃ x' f', storeOperand addr v (s.withIaFault x f) = .next (t.withIaFault x' f') := by
  unfold storeOperand
  rw [memWrite_withIaFault]
  obtain ⟨a, s', hm, hu⟩ | ⟨kind, s', hm, hu⟩ := storeOperand_cases addr v s <;> cases hu.symm.trans h <;> rw [hm]
  · exact ⟨x, f, rfl⟩
  · obtain ⟨x', f', he⟩ := raiseFault_ignoresIaFault kind addr s' x f
    exact ⟨x', f', congrArg _ he⟩

/-- Executed with another IA and another FAULT record, an instruction leaves a state that differs in these two alone. -/
theorem exec_withIaFault {i : Instr} {s t : State} (h : exec i s = .next t) (x : Address) (f : FaultRecord) :
    ∃ x' f', exec i (s.withIaFault x f) = .next (t.withIaFault x' f') := by
  cases i with
  | noop | neg | not | jmp | halt => cases h; exact ⟨_, _, rfl⟩
  | jif addr =>
    cases h
    split
    · exact ⟨addr, f, congrArg _ (if_pos ‹_›)⟩
    · exact ⟨x, f, congrArg _ (if_neg ‹_›)⟩
  | sqrt =>
    cases h
    split
    · obtain ⟨x', f', he⟩ := raiseFault_ignoresIaFault .arithmeticFault 0#16 s x f
      exact ⟨x', f', congrArg _ ((if_pos ‹_›).trans he)⟩
    · exact ⟨x, f, congrArg _ (if_neg ‹_›)⟩
  | st => exact storeOperand_withIaFault h x f
  | div =>
    refine withOperand_withIaFault h (fun a u y g => ?_) x f
    split
    · exact raiseFault_ignoresIaFault _ _ u y g
    · exact ⟨y, g, rfl⟩
  | ld | add | mul | eq | gt | and | or => exact withOperand_withIaFault h (fun _ _ y g => ⟨y, g, rfl⟩) x f

/-- Settles O40: the two end states differ in IA and the FAULT record alone. -/
theorem executeIgnoresIaAndFaultRecord : Obligations.ExecuteIgnoresIaAndFaultRecord := by
  intro i s t t' x f h h'
  obtain ⟨x', f', hexec⟩ := exec_withIaFault h x f
  cases hexec.symm.trans h'
  exact ⟨rfl, rfl, rfl, rfl, rfl, rfl, rfl⟩

/-! ## The next address, and power-on -/

/-- Settles O3: the next address is `a + 1` modulo 65536. -/
theorem nextAddressAddsOneAndWrapsAtTheTop : Obligations.NextAddressAddsOneAndWrapsAtTheTop := by
  intro a
  rw [nextAddress_toNat]
  omega

/-- On the default platform every address is the RAM offset of the same number (log entry 3). -/
theorem resolve_defaultPlatform (addr : Address) :
    resolve Config.defaultPlatform.bindings addr = some (.ram, addr.toNat) := by
  have hlt : addr.toNat < 65536 := addr.isLt
  simp [Config.defaultPlatform, resolve, AddressRange.contains, hlt]

/-- Settles O49: RAM holds no cell at power-on, so every offset reads as 0; the default platform maps every address to RAM. -/
theorem resetLeavesEveryRegisterAndCellZero : Obligations.ResetLeavesEveryRegisterAndCellZero := by
  refine ⟨rfl, fun addr => ?_, fun p => ⟨rfl, rfl, rfl, rfl, rfl, rfl, rfl, rfl, fun _ => rfl, fun _ => rfl⟩⟩
  exact ramCell_some.2 ⟨addr.toNat, resolve_defaultPlatform addr, addr.isLt, rfl⟩

/-! ## The invariant -/

/-- Power-on on a platform that passed its check meets the invariant. -/
theorem powerOn_inv {p : Platform} (h : p.wellFormed = true) : (State.powerOn p).Inv where
  platform_wf := h
  ram_wf := rfl
  ram_bounded _ hc := by cases hc
  operand_stage hs := by cases hs
  execute_stage hs := by cases hs
  record_clear _ := rfl
  record_set hr := by cases hr
  halted_boundary hr := by cases hr

/-- Settles O55: a platform that is built passed its check, and so does the default platform. -/
theorem resetMeetsTheInvariant : Obligations.ResetMeetsTheInvariant := by
  refine ⟨powerOn_inv (by decide), fun p s h => ?_⟩
  unfold buildPlatform at h
  split at h
  · cases h
    exact powerOn_inv ‹_›
  · cases h

/-- An execute stage that completes keeps the invariant. -/
theorem Completes.inv {i : Instr} {s t : State} (c : Completes i s t) (hs : s.Inv) (hr : s.run = .running)
    (hi : instrOf s.oc s.arg0 = some i) : t.Inv where
  platform_wf := c.platform ▸ hs.platform_wf
  ram_wf := by
    obtain hram | ⟨_, off, -, -, hlt, hram⟩ := c.ram <;> rw [hram]
    · exact hs.ram_wf
    · exact Memory.write_wf off _ hs.ram_wf
  ram_bounded := by
    rw [c.platform]
    obtain hram | ⟨_, off, -, -, hlt, hram⟩ := c.ram <;> rw [hram]
    · exact hs.ram_bounded
    · exact Memory.write_bounded _ hs.ram_bounded hlt
  operand_stage h := by rw [c.stage] at h; cases h
  execute_stage h := by rw [c.stage] at h; cases h
  record_clear _ := by rw [c.fault, hs.record_clear (by simp [hr])]
  record_set h := by
    obtain hrun | ⟨-, hrun⟩ := c.run <;> simp [hrun, hr] at h
  halted_boundary h := by
    obtain hrun | ⟨rfl, -⟩ := c.run
    · simp [hrun, hr] at h
    · exact ⟨c.stage, by rw [c.oc, opcode_of_instrOf hi rfl]⟩

/-- A stage that keeps the platform, RAM, RUN and the FAULT record of a running machine keeps the invariant when its opcode
allows the stage it goes on to. -/
theorem State.Inv.of_running {s t : State} (hs : s.Inv) (hr : s.run = .running) (hplatform : t.platform = s.platform)
    (hram : t.ram = s.ram) (hfault : t.fault = s.fault) (hrun : t.run = s.run)
    (hoperand : t.stage = .awaitingOperand → operandCount t.oc = some 1)
    (hexecute : t.stage = .awaitingExecute → (operandCount t.oc).isSome = true) : t.Inv where
  platform_wf := hplatform ▸ hs.platform_wf
  ram_wf := hram ▸ hs.ram_wf
  ram_bounded := by rw [hram, hplatform]; exact hs.ram_bounded
  operand_stage := hoperand
  execute_stage := hexecute
  record_clear _ := hfault.trans (hs.record_clear (by simp [hr]))
  record_set h := by simp [hrun, hr] at h
  halted_boundary h := by simp [hrun, hr] at h

/-- A fault raised on registers, STAGE and RAM as they stand keeps the invariant when the record tells its cause. -/
theorem State.Inv.of_raiseFault {s s' : State} {k : FaultKind} {a : Address} (hs : s.Inv) (c : SameCpu s s')
    (hram : s'.ram = s.ram) (hcause : faultRecordMatches (raiseFault k a s')) : (raiseFault k a s').Inv where
  platform_wf := by simpa [c.platform] using hs.platform_wf
  ram_wf := by simpa [hram] using hs.ram_wf
  ram_bounded := by simpa [hram, c.platform] using hs.ram_bounded
  operand_stage := by simpa [c.stage, c.oc] using hs.operand_stage
  execute_stage := by simpa [c.stage, c.oc] using hs.execute_stage
  record_clear h := absurd rfl h
  record_set _ := hcause
  halted_boundary h := by cases h

/-- The record of a failed access tells its cause in a stage that makes that access. -/
theorem faultRecordMatches_of_access {k : FaultKind} {a : Address} {s : State} (hk : k = .busFault ∨ k = .slaveBoundsFault)
    (h : faultRecordMatches.accessStage (raiseFault k a s)) : faultRecordMatches (raiseFault k a s) := by
  obtain rfl | rfl := hk <;> exact ⟨rfl, rfl, h⟩

/-- The record of a fault in an execute stage tells its cause: the access at Arg0 failed, or Div or Sqrt faulted (R228). -/
theorem FaultCause.recordMatches {i : Instr} {s : State} {k : FaultKind} {a : Address} (h : FaultCause i s k a)
    (hs : s.stage = .awaitingExecute) (hi : instrOf s.oc s.arg0 = some i) : faultRecordMatches (raiseFault k a s) := by
  obtain ⟨hk, r, hreq, rfl⟩ | ⟨rfl, rfl, hop⟩ := h
  · refine faultRecordMatches_of_access hk (.inr (.inr ⟨hs, dataRequest_addr hi hreq, i, hi, ?_⟩))
    simp [hreq]
  · refine ⟨rfl, rfl, hs, ?_, rfl⟩
    obtain rfl | ⟨addr, rfl⟩ := hop
    · exact .inr (opcode_of_instrOf hi rfl)
    · exact .inl (opcode_of_instrOf hi rfl)

/-- What a record says is decided by the registers and STAGE: an access before the fault plays no part. -/
theorem faultRecordMatches_congr {s s' : State} {k : FaultKind} {a : Address} (c : SameCpu s s') :
    faultRecordMatches (raiseFault k a s') ↔ faultRecordMatches (raiseFault k a s) := by
  simp [faultRecordMatches, faultRecordMatches.accessStage, c.ia, c.oc, c.stage, c.arg0, c.acc]

/-- Settles O56: a completing stage keeps RAM's form and the record and goes on to a stage its opcode allows; a fault is raised for
a cause of its stage, which its record tells; a stopped machine stays as it is. -/
theorem stepKeepsTheInvariant : Obligations.StepKeepsTheInvariant := by
  intro s t hs h
  by_cases hr : s.run = .running
  · obtain ⟨-, v, s', hm, rfl⟩ | ⟨-, h0, rfl⟩ | ⟨-, ⟨n, hn⟩, rfl⟩ | ⟨hstage, v, s', hm, rfl⟩ | ⟨-, i, hi, -, c⟩ |
      ⟨k, a, s', rfl, c, hram, hcause⟩ := step_cases hr h
    · obtain ⟨c, hram⟩ := memRead_ok_frame hm
      exact hs.of_running hr c.platform hram c.fault c.run nofun nofun
    · exact hs.of_running hr rfl rfl rfl rfl nofun (fun _ => by simp [h0])
    · exact hs.of_running hr rfl rfl rfl rfl (fun _ => operandCount_succ hn) nofun
    · obtain ⟨c, hram⟩ := memRead_ok_frame hm
      exact hs.of_running hr c.platform hram c.fault c.run nofun (fun _ => by simp [c.oc, hs.operand_stage hstage])
    · exact c.inv hs hr hi
    · refine hs.of_raiseFault c hram ((faultRecordMatches_congr c).2 ?_)
      obtain ⟨hstage, hk, rfl⟩ | ⟨hstage, rfl, h0, rfl, -⟩ | ⟨hstage, hk, rfl⟩ | ⟨hstage, i, hi, hf, -⟩ |
        ⟨hstage, h0, -⟩ := hcause
      · exact faultRecordMatches_of_access hk (.inl ⟨hstage, rfl⟩)
      · exact ⟨rfl, rfl, hstage, h0, rfl⟩
      · exact faultRecordMatches_of_access hk (.inr (.inl ⟨hstage, rfl⟩))
      · exact hf.recordMatches hstage hi
      · simpa [h0] using hs.execute_stage hstage
  · cases (step_stopped hr).symm.trans h
    exact hs

end Sys2Proof.Machine

/-! SUPPORT. Family 20_memory. The router on platforms without overlap, the layout the VM builds, and each kind of bus access as an
equation; what a step and a run do to memory follows from the one access of each step. -/

namespace Sys2Proof

/-! ## Ranges and the configuration check -/

theorem AddressRange.contains_iff {r : AddressRange} {addr : Nat} :
    r.contains addr = true ↔ r.start ≤ addr ∧ addr < r.stop := by
  simp [AddressRange.contains]

/-- A legal range ends within the address space (R53, R54). -/
theorem AddressRange.wellFormed_iff {r : AddressRange} :
    r.wellFormed = true ↔ r.start ≤ r.stop ∧ r.stop ≤ addressSpaceSize := by
  simp [AddressRange.wellFormed]

/-- Two ranges that share an address overlap (R56). -/
theorem AddressRange.overlaps_of_contains {r q : AddressRange} {addr : Nat} (hr : r.contains addr = true)
    (hq : q.contains addr = true) : r.overlaps q = true := by
  rw [AddressRange.contains_iff] at hr hq
  simp only [AddressRange.overlaps, decide_eq_true_eq]
  omega

/-- The configuration check rules out overlaps (R56). -/
theorem Platform.rangesDisjoint_of_wellFormed {p : Platform} (h : p.wellFormed = true) :
    rangesDisjoint (p.bindings.map (fun b => b.range)) = true := by
  rw [Platform.wellFormed, Bool.and_eq_true] at h
  exact h.2

end Sys2Proof

namespace Sys2Proof.Machine

/-! ## The one range that contains an address -/

/-- The bindings whose range contains the address. -/
def covering (bs : List Binding) (addr : Address) : List Binding := bs.filter (fun b => b.range.contains addr.toNat)

theorem mem_covering {bs : List Binding} {addr : Address} {b : Binding} :
    b ∈ covering bs addr ↔ b ∈ bs ∧ b.range.contains addr.toNat = true := List.mem_filter

/-- Resolution takes the first covering binding, with the offset from its start (R57). -/
theorem resolve_eq_covering (bs : List Binding) (addr : Address) :
    resolve bs addr = (covering bs addr).head?.map (fun b => (b.slave, addr.toNat - b.range.start)) := by
  induction bs with
  | nil => rfl
  | cons b bs ih =>
    unfold resolve
    by_cases hb : b.range.contains addr.toNat = true
    · simp [covering, hb]
    · simpa [covering, hb] using ih

/-- Where no two ranges overlap, at most one binding covers an address. -/
theorem covering_length_le_one {bs : List Binding} (h : rangesDisjoint (bs.map (fun b => b.range)) = true) (addr : Address) :
    (covering bs addr).length ≤ 1 := by
  induction bs with
  | nil => exact Nat.zero_le 1
  | cons b bs ih =>
    simp only [List.map_cons, rangesDisjoint, Bool.and_eq_true, List.all_map, List.all_eq_true, Function.comp_apply,
      Bool.not_eq_true'] at h
    obtain ⟨hhead, htail⟩ := h
    by_cases hb : b.range.contains addr.toNat = true
    · have hrest : covering bs addr = [] := by
        refine List.filter_eq_nil_iff.2 fun q hq hqc => ?_
        exact Bool.false_ne_true ((hhead q hq).symm.trans (AddressRange.overlaps_of_contains hb hqc))
      have hcons : covering (b :: bs) addr = b :: covering bs addr := List.filter_cons_of_pos hb
      rw [hcons, hrest]
      exact Nat.le_refl 1
    · simpa [covering, hb] using ih htail

/-- On a well-formed platform an address that a binding's range contains resolves to that binding (R57). -/
theorem resolve_of_contains {p : Platform} {addr : Address} {b : Binding} (hwf : p.wellFormed = true) (hb : b ∈ p.bindings)
    (hc : b.range.contains addr.toNat = true) : resolve p.bindings addr = some (b.slave, addr.toNat - b.range.start) := by
  have hmem : b ∈ covering p.bindings addr := mem_covering.2 ⟨hb, hc⟩
  have hone : covering p.bindings addr = [b] := by
    have hlen := covering_length_le_one (Platform.rangesDisjoint_of_wellFormed hwf) addr
    match covering p.bindings addr, hmem, hlen with
    | [c], hmem, _ => rw [List.mem_singleton.1 hmem]
  rw [resolve_eq_covering, hone]
  rfl

/-- Where no two ranges overlap, the order of the bindings plays no part (R56). -/
theorem resolve_perm {bs cs : List Binding} (hperm : bs.Perm cs) (h : rangesDisjoint (cs.map (fun b => b.range)) = true)
    (addr : Address) : resolve bs addr = resolve cs addr := by
  have hcov : (covering bs addr).Perm (covering cs addr) := hperm.filter _
  have hlen := covering_length_le_one h addr
  have heq : covering bs addr = covering cs addr := by
    match covering cs addr, hcov, hlen with
    | [], hcov, _ => exact hcov.eq_nil
    | [c], hcov, _ => exact hcov.eq_singleton
  rw [resolve_eq_covering, resolve_eq_covering, heq]

/-- Settles O41: at most one binding covers the address, so resolution finds the one that does; it finds none exactly when none
does. -/
theorem resolveFindsTheOneRange : Obligations.ResolveFindsTheOneRange := by
  intro p addr hwf
  refine ⟨fun b hb hlo hhi => resolve_of_contains hwf hb (AddressRange.contains_iff.2 ⟨hlo, hhi⟩), ?_⟩
  simp only [resolve_none, ← AddressRange.contains_iff, Bool.not_eq_true]

/-- Settles O42: the selected bindings are those that cover the address, at most one in any order. -/
theorem atMostOneSlaveIsSelected : Obligations.AtMostOneSlaveIsSelected := by
  intro p r hwf
  have hdisjoint := Platform.rangesDisjoint_of_wellFormed hwf
  exact ⟨covering_length_le_one hdisjoint r.addr, fun bs hperm => resolve_perm hperm hdisjoint r.addr,
    fun b _ _ => slaveOffset_toNat b r⟩

/-- The master port's answer is the selected slave's (R64). -/
theorem masterAnswer_of_slaveAnswer {b : Binding} {r : MasterRequest} {s : State} (hsel : slaveSelected b r = true)
    (hres : resolve s.platform.bindings r.addr = some (b.slave, r.addr.toNat - b.range.start)) :
    ∃ a s', slaveAnswer b.slave (slaveRequest b (some r)) s = (a, s') ∧
      masterAnswer r s = ({ rdata := a.rdata, err := if a.err then 2 else 0 }, s') := by
  cases hw : r.we with
  | false =>
    refine ⟨_, _, slaveAnswer_read hsel hw b.slave s, ?_⟩
    rw [masterAnswer_read hw hres, slaveRequest_some, slaveOffset_toNat]
  | true =>
    refine ⟨_, _, slaveAnswer_write hsel hw b.slave s, ?_⟩
    rw [masterAnswer_write hw hres, slaveRequest_some, slaveOffset_toNat]
    cases (slaveWrite b.slave (r.addr.toNat - b.range.start) r.wdata s).1 <;> rfl

/-- Settles O59: the selected slave is the one the address resolves to, at the offset on its port; when none is selected the
address resolves to nothing. -/
theorem slavePortAnswersTheMasterPort : Obligations.SlavePortAnswersTheMasterPort := by
  intro s r hwf
  refine ⟨slaveRequest_none_sel, fun b hb hsel => ⟨rfl, rfl, ?_, ?_⟩, fun hnone => ?_, fun sl p hsel => ?_⟩
  · have hstart : b.range.start ≤ r.addr.toNat := (AddressRange.contains_iff.1 hsel).1
    rw [slaveRequest_some, slaveOffset_toNat]
    omega
  · exact masterAnswer_of_slaveAnswer hsel (resolve_of_contains hwf hb hsel)
  · rw [masterAnswer_unmapped (resolve_none.2 hnone)]
    exact ⟨rfl, rfl⟩
  · rw [slaveAnswer_unselected hsel]

/-! ## Each kind of bus access -/

theorem memRead_unmapped {s : State} {addr : Address} (h : resolve s.platform.bindings addr = none) :
    memRead addr s = .error .busFault s := by
  simp only [memRead, h]

theorem memRead_ram {s : State} {addr : Address} {off : Nat} (h : resolve s.platform.bindings addr = some (.ram, off))
    (hlt : off < s.platform.ramCapacity) : memRead addr s = .ok (Memory.read s.ram off) s := by
  simp only [memRead, h, slaveRead, if_pos hlt]

theorem memRead_ram_beyond {s : State} {addr : Address} {off : Nat}
    (h : resolve s.platform.bindings addr = some (.ram, off)) (hge : s.platform.ramCapacity ≤ off) :
    memRead addr s = .error .slaveBoundsFault s := by
  simp only [memRead, h, slaveRead, if_neg (not_lt.2 hge)]

/-- A peripheral receives the read and answers a value or rejects the offset (R66). -/
theorem memRead_peripheral {s : State} {addr : Address} {d off : Nat}
    (h : resolve s.platform.bindings addr = some (.peripheral d, off)) :
    memRead addr s = (Config.peripheralRead d (s.history d) off).elim
      (.error .slaveBoundsFault (s.logAccess d (.read off))) (fun v => .ok v (s.logAccess d (.read off))) := by
  simp only [memRead, h, slaveRead]
  cases Config.peripheralRead d (s.history d) off <;> rfl

theorem memWrite_unmapped {s : State} {addr : Address} (v : RegisterValue) (h : resolve s.platform.bindings addr = none) :
    memWrite addr v s = .error .busFault s := by
  simp only [memWrite, h]

theorem memWrite_ram {s : State} {addr : Address} {off : Nat} (v : RegisterValue)
    (h : resolve s.platform.bindings addr = some (.ram, off)) (hlt : off < s.platform.ramCapacity) :
    memWrite addr v s = .ok () (s.setRam (Memory.write s.ram off v)) := by
  simp only [memWrite, h, slaveWrite, if_pos hlt]

theorem memWrite_ram_beyond {s : State} {addr : Address} {off : Nat} (v : RegisterValue)
    (h : resolve s.platform.bindings addr = some (.ram, off)) (hge : s.platform.ramCapacity ≤ off) :
    memWrite addr v s = .error .slaveBoundsFault s := by
  simp only [memWrite, h, slaveWrite, if_neg (not_lt.2 hge)]

/-- A peripheral receives the write and accepts or rejects it (R66). -/
theorem memWrite_peripheral {s : State} {addr : Address} {d off : Nat} (v : RegisterValue)
    (h : resolve s.platform.bindings addr = some (.peripheral d, off)) :
    memWrite addr v s = if Config.peripheralAccepts d (s.history d) off v then .ok () (s.logAccess d (.write off v))
      else .error .slaveBoundsFault (s.logAccess d (.write off v)) := by
  simp only [memWrite, h, slaveWrite]
  cases Config.peripheralAccepts d (s.history d) off v <;> rfl

/-- A peripheral's history grows by the access it receives. -/
theorem history_logAccess_same (s : State) (d : Nat) (x : Access) : (s.logAccess d x).history d = x :: s.history d := by
  simp [State.history]

/-- No other peripheral's history changes. -/
theorem history_logAccess_other (s : State) (x : Access) {d e : Nat} (h : e ≠ d) :
    (s.logAccess d x).history e = s.history e := by
  simp [State.history, h.symm]

/-- Settles O43: each kind of resolution has its equation of `memRead`. -/
theorem busReadRule : Obligations.BusReadRule := by
  intro s addr
  refine ⟨memRead_unmapped, fun off hres => ⟨memRead_ram hres, memRead_ram_beyond hres⟩, fun d off hres => ?_⟩
  refine ⟨s.logAccess d (.read off), rfl, history_logAccess_same .., fun e he => history_logAccess_other s _ he, ?_⟩
  rw [memRead_peripheral hres]
  cases Config.peripheralRead d (s.history d) off <;> rfl

/-- Settles O44: each kind of resolution has its equation of `memWrite`; RAM in canonical form reads back the one cell written. -/
theorem busWriteReachesOneSlave : Obligations.BusWriteReachesOneSlave := by
  intro s addr v hwf
  refine ⟨memWrite_unmapped v, fun off hres => ⟨fun hlt => ?_, memWrite_ram_beyond v hres⟩, fun d off hres => ?_⟩
  · exact ⟨_, memWrite_ram v hres hlt, Memory.read_write_same off v hwf, fun o ho => Memory.read_write_other v ho⟩
  · exact ⟨s.logAccess d (.write off v), rfl, history_logAccess_same .., fun e he => history_logAccess_other s _ he,
      memWrite_peripheral v hres⟩

/-- An address that names a RAM cell takes a write, and then names the value written. -/
theorem memWrite_of_ramCell {s : State} {addr : Address} (v : RegisterValue) (hwf : Memory.wf s.ram = true)
    (h : (s.ramCell addr).isSome = true) :
    ∃ s', memWrite addr v s = .ok () s' ∧ s'.ramCell addr = some v ∧
      ∀ b, resolve s.platform.bindings b ≠ resolve s.platform.bindings addr → s'.ramCell b = s.ramCell b := by
  obtain ⟨w, hw⟩ := Option.isSome_iff_exists.1 h
  obtain ⟨off, hres, hlt, -⟩ := ramCell_some.1 hw
  exact ⟨_, memWrite_ram v hres hlt, ramCell_write_same v hwf hres hlt, fun b hb => ramCell_write_other v hres hb⟩

/-- Settles O45: the cell written names the value written, and a RAM cell is read as it stands. -/
theorem readAfterWriteGivesTheValueWritten : Obligations.ReadAfterWriteGivesTheValueWritten := by
  intro s s' a b v u hwf hcell hwrite
  obtain ⟨_, hm, hsame, hother⟩ := memWrite_of_ramCell v hwf hcell
  cases hm.symm.trans hwrite
  exact ⟨memRead_of_ramCell hsame, hother b⟩

/-! ## The VM's layout -/

/-- The region of the `i`-th of the peripherals attached from `base` up with numbers from `device` up (R68). -/
def layoutBinding (base device : Nat) (sizes : List Nat) (i size : Nat) : Binding :=
  { range := { start := base + (sizes.take i).sum, stop := base + (sizes.take i).sum + size },
    slave := .peripheral (device + i) }

/-- The layout holds one binding for each size, at the sum of the sizes before it. -/
theorem getElem?_layoutPeripherals (base device : Nat) (sizes : List Nat) (i : Nat) :
    (layoutPeripherals base device sizes)[i]? = (sizes[i]?).map (layoutBinding base device sizes i) := by
  induction sizes generalizing base device i with
  | nil => rfl
  | cons size sizes ih =>
    cases i with
    | zero => rfl
    | succ i =>
      have hshift : layoutBinding (base + size) (device + 1) sizes i = layoutBinding base device (size :: sizes) (i + 1) := by
        funext n
        simp [layoutBinding, Nat.add_assoc, Nat.add_comm 1 i]
      simp [layoutPeripherals, ih, hshift]

theorem mem_layoutPeripherals {base device : Nat} {sizes : List Nat} {b : Binding} :
    b ∈ layoutPeripherals base device sizes ↔ ∃ i size, sizes[i]? = some size ∧ b = layoutBinding base device sizes i size := by
  simp only [List.mem_iff_getElem?, getElem?_layoutPeripherals, Option.map_eq_some_iff, eq_comm (a := b)]

/-- A region and the regions before it lie within the total. -/
theorem sum_take_add_le_sum {sizes : List Nat} {i size : Nat} (h : sizes[i]? = some size) :
    (sizes.take i).sum + size ≤ sizes.sum := by
  obtain ⟨hi, rfl⟩ := List.getElem?_eq_some_iff.1 h
  rw [← List.sum_take_succ]
  exact (List.take_sublist (i + 1) sizes).sum_le_sum (fun _ _ => Nat.zero_le _)

/-- Every peripheral's region lies between the base and the end of the last region. -/
theorem layoutPeripherals_bounds {base device : Nat} {sizes : List Nat} {b : Binding}
    (h : b ∈ layoutPeripherals base device sizes) :
    base ≤ b.range.start ∧ b.range.start ≤ b.range.stop ∧ b.range.stop ≤ base + sizes.sum := by
  obtain ⟨i, size, hi, rfl⟩ := mem_layoutPeripherals.1 h
  have hsum := sum_take_add_le_sum hi
  simp only [layoutBinding]
  omega

/-- A binding placed below disjoint ranges leaves them disjoint. -/
theorem rangesDisjoint_cons_of_below {b : Binding} {bs : List Binding} (hbelow : ∀ c ∈ bs, b.range.stop ≤ c.range.start)
    (h : rangesDisjoint (bs.map (fun c => c.range)) = true) : rangesDisjoint ((b :: bs).map (fun c => c.range)) = true := by
  simp only [List.map_cons, rangesDisjoint, h, Bool.and_true, List.all_map, List.all_eq_true, Function.comp_apply,
    AddressRange.overlaps, Bool.not_eq_true', decide_eq_false_iff_not]
  intro c hc
  have := hbelow c hc
  omega

theorem rangesDisjoint_layoutPeripherals (base device : Nat) (sizes : List Nat) :
    rangesDisjoint ((layoutPeripherals base device sizes).map (fun b => b.range)) = true := by
  induction sizes generalizing base device with
  | nil => rfl
  | cons size sizes ih => exact rangesDisjoint_cons_of_below (fun c hc => (layoutPeripherals_bounds hc).1) (ih ..)

/-- A layout whose total fits the address space passes the configuration check (R235). -/
theorem vmLayout_wellFormed {ramSize : Nat} {sizes : List Nat} (h : ramSize + sizes.sum ≤ 65536) :
    (vmLayout ramSize sizes).wellFormed = true := by
  have hdisjoint : rangesDisjoint ((vmLayout ramSize sizes).bindings.map (fun b => b.range)) = true :=
    rangesDisjoint_cons_of_below (fun c hc => (layoutPeripherals_bounds hc).1) (rangesDisjoint_layoutPeripherals ..)
  have hranges : ∀ b ∈ (vmLayout ramSize sizes).bindings, b.range.wellFormed = true := by
    intro b hb
    obtain rfl | hb := List.mem_cons.1 hb
    · exact AddressRange.wellFormed_iff.2 ⟨Nat.zero_le _, (Nat.le_add_right ..).trans h⟩
    · obtain ⟨-, hle, hstop⟩ := layoutPeripherals_bounds hb
      exact AddressRange.wellFormed_iff.2 ⟨hle, hstop.trans h⟩
  have hcapacity : (vmLayout ramSize sizes).ramCapacity ≤ addressSpaceSize := (Nat.le_add_right ..).trans h
  rw [Platform.wellFormed, hdisjoint, List.all_eq_true.2 hranges, decide_eq_true hcapacity]
  rfl

/-- Settles O47: the layout passes the check, so an address resolves to the region it lies in, and above the last region to none. -/
theorem vmLayoutPlacesRamThenPeripherals : Obligations.VmLayoutPlacesRamThenPeripherals := by
  intro ramSize sizes
  refine ⟨fun h => if_neg (not_le.2 h), fun h => ?_⟩
  have hwf := vmLayout_wellFormed h
  refine ⟨hwf, (if_pos h).trans (if_pos hwf), fun addr => ⟨fun hlt => ?_, fun i size hi hlo hhi => ?_, fun hge => ?_⟩⟩
  · exact resolve_of_contains hwf (List.mem_cons_self ..) (AddressRange.contains_iff.2 ⟨Nat.zero_le _, hlt⟩)
  · have hb : layoutBinding ramSize 0 sizes i size ∈ (vmLayout ramSize sizes).bindings :=
      List.mem_cons_of_mem _ (mem_layoutPeripherals.2 ⟨i, size, hi, rfl⟩)
    have hres := resolve_of_contains hwf hb (AddressRange.contains_iff.2 ⟨hlo, hhi⟩)
    simpa only [layoutBinding, Nat.zero_add] using hres
  · refine resolve_none.2 fun b hb => Bool.eq_false_iff.2 fun hc => ?_
    have hhi := (AddressRange.contains_iff.1 hc).2
    obtain rfl | hb := List.mem_cons.1 hb
    · dsimp only at hhi
      omega
    · have := (layoutPeripherals_bounds hb).2.2
      omega

/-- In the VM's layout only the region `[0, RAM_SIZE)` resolves to RAM, each address to the offset of the same number. -/
theorem resolve_vmLayout_ram {ramSize : Nat} {sizes : List Nat} {addr : Address} {off : Nat}
    (h : resolve (vmLayout ramSize sizes).bindings addr = some (.ram, off)) : off = addr.toNat ∧ addr.toNat < ramSize := by
  obtain ⟨b, hb, hslave, -, hlt, rfl⟩ := resolve_some h
  obtain rfl | hb := List.mem_cons.1 hb
  · exact ⟨rfl, hlt⟩
  · obtain ⟨i, size, -, rfl⟩ := mem_layoutPeripherals.1 hb
    cases hslave

/-- Settles O48: the offset is the address, which lies below RAM's capacity. -/
theorem ramAlwaysAnswersInTheVmLayout : Obligations.RamAlwaysAnswersInTheVmLayout := by
  intro s ramSize sizes addr off v hplatform hres
  obtain ⟨rfl, hlt⟩ := resolve_vmLayout_ram (hplatform ▸ hres)
  have hcapacity : addr.toNat < s.platform.ramCapacity := by rwa [hplatform]
  exact ⟨rfl, hlt, memRead_ram hres hcapacity, _, memWrite_ram v hres hcapacity⟩

/-! ## The inspection read -/

theorem hostInspect_of_ok {s s' : State} {addr : Address} {v : RegisterValue} (h : memRead addr s = .ok v s') :
    hostInspect addr s = (.value v, s') := by
  simp only [hostInspect, h]

theorem hostInspect_of_error {s s' : State} {addr : Address} {k : FaultKind} (h : memRead addr s = .error k s') :
    hostInspect addr s = (.error (if k = .busFault then .inspectUnmapped addr else .inspectRejected addr), s') := by
  simp only [hostInspect, h]

/-- An inspection touches no register and no RAM cell, whatever the bus read answers. -/
theorem hostInspect_frame (addr : Address) (s : State) :
    SameCpu s (hostInspect addr s).2 ∧ (hostInspect addr s).2.ram = s.ram := by
  cases hm : memRead addr s with
  | ok v s' =>
    rw [hostInspect_of_ok hm]
    exact memRead_ok_frame hm
  | error k s' =>
    rw [hostInspect_of_error hm]
    exact memRead_error_frame hm

theorem SameCpu.hostSnapshot_eq {s t : State} (c : SameCpu s t) : hostSnapshot t = hostSnapshot s := by
  simp only [hostSnapshot, c.ia, c.oc, c.arg0, c.acc, c.stage, c.run, c.fault]

/-- Settles O52: an inspection answers by the cases of the bus read, which leaves every register and RAM cell. -/
theorem inspectionReadsThroughTheBus : Obligations.InspectionReadsThroughTheBus := by
  intro s addr
  obtain ⟨hcpu, hram⟩ := hostInspect_frame addr s
  exact ⟨fun v hv => hostInspect_of_ok (memRead_of_ramCell hv), fun v s' => hostInspect_of_ok,
    fun hres => hostInspect_of_error (memRead_unmapped hres), fun s' => hostInspect_of_error, hcpu.hostSnapshot_eq, hram⟩

/-! ## The one access of a step -/

/-- The fetch-opcode stage makes the one read at IA. -/
theorem fetchOpcodeStage_accesses (s : State) :
    Accesses (some { we := false, addr := s.ia, wdata := 0#16 }) s (fetchOpcodeStage s) := by
  obtain ⟨v, s', hm, ht⟩ | ⟨k, s', hm, ht⟩ := fetchOpcodeStage_cases s <;> rw [ht] <;>
    exact ⟨by simp [masterAnswer, hm], by simp [masterAnswer, hm]⟩

/-- The fetch-operand stage makes the one read at IA. -/
theorem fetchOperandStage_accesses (s : State) :
    Accesses (some { we := false, addr := s.ia, wdata := 0#16 }) s (fetchOperandStage s) := by
  obtain ⟨v, s', hm, ht⟩ | ⟨k, s', hm, ht⟩ := fetchOperandStage_cases s <;> rw [ht] <;>
    exact ⟨by simp [masterAnswer, hm], by simp [masterAnswer, hm]⟩

/-- The decode stage makes no access. -/
theorem decodeStage_accesses (s : State) : Accesses none s (decodeStage s) := by
  obtain ⟨-, ht⟩ | ⟨-, ht⟩ | ⟨n, -, ht⟩ := decodeStage_cases s <;> rw [ht] <;> exact ⟨rfl, rfl⟩

/-- The execute stage makes the access of the decoded instruction, and none for an illegal opcode. -/
theorem executeStage_accesses {s t : State} (h : executeStage s = .next t) :
    Accesses ((instrOf s.oc s.arg0).bind (dataRequest s.acc)) s t := by
  unfold executeStage at h
  cases hi : instrOf s.oc s.arg0 with
  | some i =>
    rw [hi] at h
    exact exec_accesses h
  | none =>
    rw [hi] at h
    cases h
    exact ⟨rfl, rfl⟩

/-- A stopped machine makes no request (R128). -/
theorem nextRequest_stopped {s : State} (h : s.run ≠ .running) : nextRequest s = none := by
  unfold nextRequest
  cases hr : s.run with
  | running => exact absurd hr h
  | halted | faulted => rfl

/-- A step makes exactly the access of its request (R51, R121). -/
theorem step_accesses {s t : State} (h : step s = .next t) : Accesses (nextRequest s) s t := by
  by_cases hr : s.run = .running
  · cases hs : s.stage with
    | awaitingFetch =>
      cases (step_fetch hr hs).symm.trans h
      simpa only [nextRequest, hr, hs] using fetchOpcodeStage_accesses s
    | awaitingDecode =>
      cases (step_decode hr hs).symm.trans h
      simpa only [nextRequest, hr, hs] using decodeStage_accesses s
    | awaitingOperand =>
      cases (step_operand hr hs).symm.trans h
      simpa only [nextRequest, hr, hs] using fetchOperandStage_accesses s
    | awaitingExecute =>
      simpa only [nextRequest, hr, hs] using executeStage_accesses ((step_execute hr hs).symm.trans h)
  · cases (step_stopped hr).symm.trans h
    rw [nextRequest_stopped hr]
    exact ⟨rfl, rfl⟩

/-- Settles O39: the access of each stage, said of RAM and of the peripherals. -/
theorem stepMakesExactlyItsOneAccess : Obligations.StepMakesExactlyItsOneAccess := by
  intro s t h
  obtain ⟨hram, hlog⟩ := step_accesses h
  cases hreq : nextRequest s <;> rw [hreq] at hram hlog <;> exact ⟨hram, hlog⟩

/-- Settles O46: the store leaves Acc in the cell at IA, which the next fetch reads. -/
theorem storeIsSeenByTheNextFetch : Obligations.StoreIsSeenByTheNextFetch := by
  intro s t hwf hr hs hoc harg0 hcell h
  obtain ⟨s', hm, hsame, -⟩ := memWrite_of_ramCell s.acc hwf hcell
  have c := memWrite_ok_frame hm
  have hstep : step s = .next s'.endCycle := by
    have hi : instrOf s.oc s.arg0 = some (.st s.ia) := by
      rw [hoc, harg0]
      rfl
    simp only [step_execute hr hs, executeStage, hi, exec, execSt, storeOperand, hm]
  cases hstep.symm.trans h
  have hread : memRead s'.endCycle.ia s'.endCycle = .ok s.acc s'.endCycle := by
    rw [State.endCycle_ia, c.ia]
    exact memRead_of_ramCell hsame
  rw [step_fetch (s := s'.endCycle) (c.run.trans hr) rfl, fetchOpcodeStage, hread, ← c.ia]
  rfl

/-! ## Over any run -/

/-- An access adds to what the peripherals have received and forgets nothing. -/
theorem masterAnswer_deviceLog_suffix (r : MasterRequest) (s : State) :
    s.deviceLog <:+ (masterAnswer r s).2.deviceLog := by
  have hcases : (masterAnswer r s).2.deviceLog = s.deviceLog ∨ ∃ x, (masterAnswer r s).2.deviceLog = x :: s.deviceLog := by
    cases hw : r.we with
    | false => exact (masterAnswer_read_frame hw s).2.imp_right fun ⟨_, _, _, hlog⟩ => ⟨_, hlog⟩
    | true => exact (masterAnswer_write_deviceLog hw s).imp_right fun ⟨_, _, _, hlog⟩ => ⟨_, hlog⟩
  obtain hlog | ⟨x, hlog⟩ := hcases <;> rw [hlog]
  exact List.suffix_cons x _

theorem step_deviceLog_suffix {s t : State} (h : step s = .next t) : s.deviceLog <:+ t.deviceLog := by
  rw [(step_accesses h).deviceLog]
  cases nextRequest s with
  | none => exact List.suffix_rfl
  | some r => exact masterAnswer_deviceLog_suffix r s

/-- What each peripheral has received grows with the log. -/
theorem history_suffix {s t : State} (h : s.deviceLog <:+ t.deviceLog) (d : Nat) : s.history d <:+ t.history d :=
  (h.filter _).map _

/-- Settles O58: one step rebinds nothing, forgets no access and does not move a stopped machine, and so does a run of them. -/
theorem runsNeverRebindForgetOrResume : Obligations.RunsNeverRebindForgetOrResume := by
  intro n
  induction n with
  | zero =>
    rintro s t rfl
    exact ⟨rfl, fun _ => List.suffix_rfl, fun _ => rfl⟩
  | succ n ih =>
    rintro s t ⟨u, hstep, hrest⟩
    obtain ⟨-, -, -, -, -, hplatform⟩ := registersAreWrittenOnlyByTheirWriters s u hstep
    obtain ⟨hplatform', hhistory, hrun⟩ := ih u t hrest
    refine ⟨hplatform'.trans hplatform, fun d => ?_, fun hr => ?_⟩
    · exact (history_suffix (step_deviceLog_suffix hstep) d).trans (hhistory d)
    · cases (step_stopped hr).symm.trans hstep
      exact hrun hr

end Sys2Proof.Machine

/-! SUPPORT. Family 30_encoding. The opcode map as its table, the decoder as one equivalence over the opcode map, and the encoder
as its inverse. -/

namespace Sys2Proof.Machine

/-! ## The opcode map as its table -/

/-- The map gives exactly the rows of its table: no two rows share an opcode cell (R93, R94). -/
theorem lookupOpcode_eq_some_iff {oc : RegisterValue} {row : OpcodeRow} :
    lookupOpcode oc = some row ↔ row ∈ opcodeTable ∧ row.opcode = oc := by
  refine ⟨lookupOpcode_some, ?_⟩
  rintro ⟨hmem, rfl⟩
  fin_cases hmem <;> rfl

/-- The opcode cells with operand count `n`, read off the table (R94). -/
theorem operandCount_eq_some_iff {oc : RegisterValue} {n : Nat} :
    operandCount oc = some n ↔
      oc ∈ (opcodeTable.filter (fun row => row.format.operands = n)).map (fun row => row.opcode) := by
  simp only [operandCount, Option.map_eq_some_iff, lookupOpcode_eq_some_iff, List.mem_map, List.mem_filter, decide_eq_true_eq]
  exact exists_congr fun row => and_right_comm

/-- The illegal opcode cells are those outside the table (R97). -/
theorem operandCount_eq_none_iff {oc : RegisterValue} :
    operandCount oc = none ↔ oc ∉ opcodeTable.map (fun row => row.opcode) := by
  simp [operandCount, lookupOpcode]

/-- The illegal opcode cells as ranges (R97). -/
theorem operandCount_eq_none_iff_range {oc : RegisterValue} :
    operandCount oc = none ↔
      (0x000E ≤ oc.toNat ∧ oc.toNat ≤ 0x00E0) ∨ (0x00E2 ≤ oc.toNat ∧ oc.toNat ≤ 0x00FE) ∨ 0x0100 ≤ oc.toNat := by
  rw [operandCount_eq_none_iff]
  simp only [opcodeTable, opcSqrt, List.map_cons, List.map_nil, List.mem_cons, List.not_mem_nil, or_false, BitVec.toNat_eq,
    BitVec.toNat_ofNat]
  omega

/-- 65536 cells less the 16 distinct opcode cells of the table (R97). -/
theorem card_operandCount_none :
    ((Finset.univ : Finset (Fin 65536)).filter (fun n => (operandCount (BitVec.ofFin n)).isNone = true)).card = 65520 := by
  have hnodup : (opcodeTable.map (fun row => row.opcode.toFin)).Nodup := by decide
  have hcompl : (Finset.univ : Finset (Fin 65536)).filter (fun n => (operandCount (BitVec.ofFin n)).isNone = true) =
      ((opcodeTable.map (fun row => row.opcode.toFin)).toFinset)ᶜ := by
    ext n
    simp [operandCount_eq_none_iff, ← BitVec.toFin_inj]
  rw [hcompl, Finset.card_compl, List.toFinset_card_of_nodup hnodup, Fintype.card_fin]
  rfl

/-! ## The decoder and the encoder -/

/-- Format Z: the opcode cell alone is the instruction (R91, R95). -/
theorem decode_of_operandCount_zero {oc : RegisterValue} {i : Instr} (hcount : operandCount oc = some 0)
    (hi : instrOf oc 0#16 = some i) (rest : List RegisterValue) : decode (oc :: rest) = .ok (i, rest) := by
  obtain ⟨row, hrow, rfl⟩ := instrOf_some hi
  cases hf : row.format with
  | z => simp [decode, hrow, hf]
  | a => simp [operandCount, hrow, hf, Format.operands] at hcount

/-- Format A: the opcode cell and the operand cell after it are the instruction (R92, R95, R96). -/
theorem decode_of_operandCount_one {oc arg : RegisterValue} {i : Instr} (hcount : operandCount oc = some 1)
    (hi : instrOf oc arg = some i) (rest : List RegisterValue) : decode (oc :: arg :: rest) = .ok (i, rest) := by
  obtain ⟨row, hrow, rfl⟩ := instrOf_some hi
  cases hf : row.format with
  | z => simp [operandCount, hrow, hf, Format.operands] at hcount
  | a => simp [decode, hrow, hf]

/-- A cell that is no opcode is refused by name, whatever follows it (R97). -/
theorem decode_of_operandCount_none {oc : RegisterValue} (hcount : operandCount oc = none) (rest : List RegisterValue) :
    decode (oc :: rest) = .error (.illegalOpcode oc) := by
  have hrow : lookupOpcode oc = none := Option.map_eq_none_iff.1 hcount
  simp [decode, hrow]

/-- The cells that decode: an opcode without operand, or an opcode with an operand and its operand cell, and then the rest. -/
theorem decode_ok_cases {cells rest : List RegisterValue} {i : Instr} (h : decode cells = .ok (i, rest)) :
    ∃ oc, (operandCount oc = some 0 ∧ instrOf oc 0#16 = some i ∧ cells = oc :: rest) ∨
      ∃ arg, operandCount oc = some 1 ∧ instrOf oc arg = some i ∧ cells = oc :: arg :: rest := by
  obtain _ | ⟨oc, tail⟩ := cells
  · cases h
  cases hrow : lookupOpcode oc with
  | none => simp [decode, hrow] at h
  | some row =>
    cases hf : row.format with
    | z =>
      simp only [decode, hrow, hf, Except.ok.injEq, Prod.mk.injEq] at h
      obtain ⟨rfl, rfl⟩ := h
      exact ⟨oc, .inl ⟨by simp [operandCount, hrow, hf, Format.operands], by simp [instrOf, hrow], rfl⟩⟩
    | a =>
      obtain _ | ⟨arg, tail⟩ := tail
      · simp [decode, hrow, hf] at h
      simp only [decode, hrow, hf, toAddr_eq, Except.ok.injEq, Prod.mk.injEq] at h
      obtain ⟨rfl, rfl⟩ := h
      exact ⟨oc, .inr ⟨arg, by simp [operandCount, hrow, hf, Format.operands], by simp [instrOf, hrow], rfl⟩⟩

/-- The encoding is the opcode cell and as many operand cells as the opcode takes (R104). -/
theorem encode_of_operandCount {oc : RegisterValue} {arg : Address} {i : Instr} {n : Nat} (hi : instrOf oc arg = some i)
    (hcount : operandCount oc = some n) : encode i = oc :: [arg].take n := by
  obtain ⟨row, hrow, rfl⟩ := instrOf_some hi
  obtain rfl : row.format.operands = n := by simpa [operandCount, hrow] using hcount
  obtain ⟨hmem, rfl⟩ := lookupOpcode_some hrow
  fin_cases hmem <;> simp [encode, Format.operands]

/-- The decoder undoes the encoder, whatever cells follow the instruction. -/
theorem decode_encode (i : Instr) (rest : List RegisterValue) : decode (encode i ++ rest) = .ok (i, rest) := by
  cases i with
  | noop | neg | not | sqrt | halt => exact decode_of_operandCount_zero rfl rfl rest
  | ld | st | add | mul | div | eq | gt | and | or | jmp | jif =>
    rw [encode, toReg_eq]
    exact decode_of_operandCount_one rfl rfl rest

/-- The encoder undoes the decoder: cells that decode are the instruction's encoding and the rest. -/
theorem eq_encode_append_of_decode {cells rest : List RegisterValue} {i : Instr} (h : decode cells = .ok (i, rest)) :
    cells = encode i ++ rest := by
  obtain ⟨oc, ⟨hcount, hi, rfl⟩ | ⟨arg, hcount, hi, rfl⟩⟩ := decode_ok_cases h <;>
    rw [encode_of_operandCount hi hcount] <;> rfl

/-! ## The obligations of the family -/

/-- Settles O4: every encoding begins with an opcode cell whose operand count is the number of cells after it, so the decoder takes
exactly those cells; and what the decoder took, the encoder writes. -/
theorem decodeAndEncodeAgree : Obligations.DecodeAndEncodeAgree :=
  ⟨fun i rest _ => decode_encode i rest, fun _ _ _ => eq_encode_append_of_decode⟩

/-- Settles O5: both lists are the opcode cells of the table's rows in the format, and a format takes no operand or one. -/
theorem operandCountOfEveryOpcodeCell : Obligations.OperandCountOfEveryOpcodeCell := by
  intro oc
  refine ⟨operandCount_eq_some_iff, operandCount_eq_some_iff, fun n hn => ?_⟩
  cases n with
  | zero => exact .inl rfl
  | succ n => exact .inr (Option.some.inj (hn.symm.trans (operandCount_succ hn)))

/-- Settles O6: the illegal cells are those outside the table, and the decode stage raises the fault on these and on no other. -/
theorem illegalOpcodeCellsFaultInDecode : Obligations.IllegalOpcodeCellsFaultInDecode := by
  refine ⟨fun _ => operandCount_eq_none_iff_range, card_operandCount_none, fun s hr hs => ?_⟩
  rw [step_decode hr hs]
  obtain ⟨hcount, ht⟩ | ⟨hcount, ht⟩ | ⟨n, hcount, ht⟩ := decodeStage_cases s
  · exact ⟨fun _ => congrArg _ ht, fun hne => absurd hcount hne⟩
  · exact ⟨fun hnone => absurd (hcount.symm.trans hnone) nofun, fun _ => ⟨_, congrArg _ ht, hr⟩⟩
  · exact ⟨fun hnone => absurd (hcount.symm.trans hnone) nofun, fun _ => ⟨_, congrArg _ ht, hr⟩⟩

/-- Settles O7: the seven words are encodings of their instructions, and the last two cells have no row in the table. -/
theorem wordsOfEachFamilyDecode : Obligations.WordsOfEachFamilyDecode :=
  ⟨decode_encode .noop [], decode_encode (.ld 5#16) [], decode_encode (.add 40000#16) [], decode_encode .not [],
    decode_encode (.jmp 65535#16) [], decode_encode .sqrt [], decode_encode .halt [],
    decode_of_operandCount_none rfl [], decode_of_operandCount_none rfl []⟩

end Sys2Proof.Machine

/-! SUPPORT. Family 40_cycle. The step of each stage as an equation, the run-up to the execute stage, the total step, and cycles and
runs as sequences of steps. -/

namespace Sys2Proof.Machine

/-! ## The step of each stage -/

/-- An answered fetch of the opcode (R122). -/
theorem step_fetch_ok {s s' : State} {v : RegisterValue} (hr : s.run = .running) (hs : s.stage = .awaitingFetch)
    (hm : memRead s.ia s = .ok v s') :
    step s = .next { s' with oc := v, ia := nextAddress s.ia, stage := .awaitingDecode } := by
  rw [step_fetch hr hs, fetchOpcodeStage, hm, ← (memRead_ok_frame hm).1.ia]
  rfl

/-- A failed fetch of the opcode (R122, R226). -/
theorem step_fetch_error {s s' : State} {k : FaultKind} (hr : s.run = .running) (hs : s.stage = .awaitingFetch)
    (hm : memRead s.ia s = .error k s') : step s = .next (raiseFault k s.ia s') := by
  rw [step_fetch hr hs, fetchOpcodeStage, hm]

/-- The decode of an illegal opcode cell (R124). -/
theorem step_decode_illegal {s : State} (hr : s.run = .running) (hs : s.stage = .awaitingDecode)
    (hcount : operandCount s.oc = none) : step s = .next (raiseFault .invalidInstruction 0#16 s) := by
  rw [step_decode hr hs, decodeStage, hcount]

/-- The decode of an opcode without operand (R123). -/
theorem step_decode_formatZ {s : State} (hr : s.run = .running) (hs : s.stage = .awaitingDecode)
    (hcount : operandCount s.oc = some 0) : step s = .next { s with stage := .awaitingExecute } := by
  rw [step_decode hr hs, decodeStage, hcount]
  rfl

/-- The decode of an opcode with an operand (R123). -/
theorem step_decode_formatA {s : State} {n : Nat} (hr : s.run = .running) (hs : s.stage = .awaitingDecode)
    (hcount : operandCount s.oc = some (n + 1)) : step s = .next { s with stage := .awaitingOperand } := by
  rw [step_decode hr hs, decodeStage, hcount]
  rfl

/-- An answered fetch of the operand (R125). -/
theorem step_operand_ok {s s' : State} {v : RegisterValue} (hr : s.run = .running) (hs : s.stage = .awaitingOperand)
    (hm : memRead s.ia s = .ok v s') :
    step s = .next { s' with arg0 := toAddr v, ia := nextAddress s.ia, stage := .awaitingExecute } := by
  rw [step_operand hr hs, fetchOperandStage, hm, ← (memRead_ok_frame hm).1.ia]
  rfl

/-- A failed fetch of the operand (R125, R226). -/
theorem step_operand_error {s s' : State} {k : FaultKind} (hr : s.run = .running) (hs : s.stage = .awaitingOperand)
    (hm : memRead s.ia s = .error k s') : step s = .next (raiseFault k s.ia s') := by
  rw [step_operand hr hs, fetchOperandStage, hm]

/-- The execute stage of a legal opcode (R126). -/
theorem step_execute_of_instrOf {s : State} {i : Instr} (hr : s.run = .running) (hs : s.stage = .awaitingExecute)
    (hi : instrOf s.oc s.arg0 = some i) : step s = exec i s := by
  rw [step_execute hr hs, executeStage, hi]

/-- Settles O27: the two answers of the read, which touches no register. -/
theorem fetchOpcodeStageReadsThenAdvances : Obligations.FetchOpcodeStageReadsThenAdvances := by
  intro s hr hs
  refine ⟨fun v s' hm => ?_, fun k s' hm => ?_⟩
  · have c := (memRead_ok_frame hm).1
    exact ⟨step_fetch_ok hr hs hm, c.acc, c.arg0⟩
  · have c := (memRead_error_frame hm).1
    exact ⟨memRead_error_kind hm, step_fetch_error hr hs hm, c.oc, c.ia, c.stage.trans hs⟩

/-- Settles O28: the three cases of the operand count. -/
theorem decodeStageChoosesTheNextStage : Obligations.DecodeStageChoosesTheNextStage := by
  intro s hr hs
  refine ⟨step_decode_illegal hr hs, fun n hcount hpos => ?_, step_decode_formatZ hr hs⟩
  obtain ⟨m, rfl⟩ := Nat.exists_eq_add_of_lt hpos
  exact step_decode_formatA hr hs hcount

/-- Settles O29: the two answers of the read, which touches no register. -/
theorem fetchOperandStageLoadsArg0 : Obligations.FetchOperandStageLoadsArg0 := by
  intro s hr hs
  refine ⟨fun v s' hm => step_operand_ok hr hs hm, fun k s' hm => ?_⟩
  have c := (memRead_error_frame hm).1
  exact ⟨memRead_error_kind hm, step_operand_error hr hs hm, c.arg0, c.ia, c.stage.trans hs⟩

/-! ## From the boundary to the execute stage -/

/-- An opcode without operand stands for one instruction, whatever Arg0 holds (R91). -/
theorem instrOf_formatZ {oc : RegisterValue} (hcount : operandCount oc = some 0) (a b : Address) :
    instrOf oc a = instrOf oc b := by
  obtain ⟨hmem, -, -⟩ := operandCountOfEveryOpcodeCell oc
  have hoc := hmem.1 hcount
  fin_cases hoc <;> rfl

/-- A cell that decodes alone is an opcode without operand, of that instruction. -/
theorem formatZ_of_decode {c : RegisterValue} {i : Instr} (h : decode [c] = .ok (i, [])) (a : Address) :
    operandCount c = some 0 ∧ instrOf c a = some i := by
  obtain ⟨_, ⟨hcount, hi, ⟨⟩⟩ | ⟨_, -, -, ⟨⟩⟩⟩ := decode_ok_cases h
  exact ⟨hcount, (instrOf_formatZ hcount a 0#16).trans hi⟩

/-- Two cells that decode without rest are an opcode with an operand and its operand cell. -/
theorem formatA_of_decode {c a : RegisterValue} {i : Instr} (h : decode [c, a] = .ok (i, [])) :
    operandCount c = some 1 ∧ instrOf c a = some i := by
  obtain ⟨_, ⟨-, -, ⟨⟩⟩ | ⟨_, hcount, hi, ⟨⟩⟩⟩ := decode_ok_cases h
  exact ⟨hcount, hi⟩

/-- Fetch and decode of an opcode without operand, from any slave. -/
theorem stepsTo_execute_formatZ {s s' : State} {c : RegisterValue} (hr : s.run = .running) (hs : s.stage = .awaitingFetch)
    (hm : memRead s.ia s = .ok c s') (hcount : operandCount c = some 0) :
    StepsTo 2 s { s' with oc := c, ia := nextAddress s.ia, stage := .awaitingExecute } := by
  have hr' : s'.run = .running := (memRead_ok_frame hm).1.run.trans hr
  exact ⟨_, step_fetch_ok hr hs hm, _, step_decode_formatZ hr' rfl hcount, rfl⟩

/-- Fetch, decode and operand fetch of an opcode with an operand, both cells in RAM. -/
theorem stepsTo_execute_formatA {s : State} {c a : RegisterValue} (hr : s.run = .running) (hs : s.stage = .awaitingFetch)
    (hc : s.ramCell s.ia = some c) (ha : s.ramCell (nextAddress s.ia) = some a) (hcount : operandCount c = some 1) :
    StepsTo 3 s { s with oc := c, arg0 := toAddr a, ia := nextAddress (nextAddress s.ia), stage := .awaitingExecute } :=
  ⟨_, step_fetch_ok hr hs (memRead_of_ramCell hc), _, step_decode_formatA hr rfl hcount, _,
    step_operand_ok hr rfl (memRead_of_ramCell ha), rfl⟩

/-- Settles O30: the operand count that the decoded cells tell leads the stages to the execute stage, with the decoded instruction
in OC and Arg0. -/
theorem stepRunsTheDecodedInstruction : Obligations.StepRunsTheDecodedInstruction := by
  refine ⟨fun s i => step_execute_of_instrOf, fun s i c hr hs hc hdec => ?_, fun s i c a hr hs hc ha _ hdec => ?_⟩
  · obtain ⟨hcount, hi⟩ := formatZ_of_decode hdec s.arg0
    exact ⟨_, rfl, stepsTo_execute_formatZ hr hs (memRead_of_ramCell hc) hcount, step_execute_of_instrOf hr rfl hi⟩
  · obtain ⟨hcount, hi⟩ := formatA_of_decode hdec
    rw [← toAddr_eq a] at hi
    exact ⟨_, rfl, stepsTo_execute_formatA hr hs hc ha hcount, step_execute_of_instrOf hr rfl hi⟩

theorem SameCpu.trans {s t u : State} (h : SameCpu s t) (h' : SameCpu t u) : SameCpu s u :=
  ⟨h'.ia.trans h.ia, h'.oc.trans h.oc, h'.arg0.trans h.arg0, h'.acc.trans h.acc, h'.stage.trans h.stage, h'.run.trans h.run,
    h'.fault.trans h.fault, h'.platform.trans h.platform⟩

/-- Placing a cell touches no register. -/
theorem placeCell_frame (addr : Address) (v : RegisterValue) (s : State) : SameCpu s (placeCell addr v s) := by
  unfold placeCell
  split
  · split
    · exact sameCpu_setRam ..
    · exact SameCpu.refl s
  · exact SameCpu.refl s

/-- On a running machine without fault, `withFetchWord` is placing the two cells and the stages before the execute stage. -/
theorem withFetchWord_eq_fetched {s : State} {nbits w : Nat} {c a : RegisterValue} (hr : s.run = .running)
    (hf : s.fault = FaultRecord.clear) (hw : tableCells nbits w = (c, a)) :
    s.withFetchWord nbits w = fetched c a (placeCell (nextAddress s.ia) a (placeCell s.ia c s)) := by
  have cpu := (placeCell_frame s.ia c s).trans (placeCell_frame (nextAddress s.ia) a _)
  rw [State.withFetchWord, hw, placeAndFetch, ← hr, ← hf, ← cpu.run, ← cpu.fault]
  rfl

/-- Settles O54: placing the cells keeps the machine running at its boundary, from where fetch, decode and operand fetch give the
registers of `fetched`. -/
theorem fetchWordIsReachedByTheStages : Obligations.FetchWordIsReachedByTheStages := by
  rintro s p nbits w c a hr hs hf hw rfl hc ha
  rw [withFetchWord_eq_fetched hr hf hw]
  have cpu := (placeCell_frame s.ia c s).trans (placeCell_frame (nextAddress s.ia) a _)
  generalize placeCell (nextAddress s.ia) a (placeCell s.ia c s) = p at *
  rw [← cpu.ia] at hc ha
  have hpr : p.run = .running := cpu.run.trans hr
  have hps : p.stage = .awaitingFetch := cpu.stage.trans hs
  have hm := memRead_of_ramCell hc
  unfold fetched
  refine ⟨fun hcount => ?_, fun hcount => ?_, fun hcount => ?_⟩ <;> rw [hcount]
  · exact (stepsTo_execute_formatZ hpr hps hm hcount :)
  · exact stepsTo_execute_formatA hpr hps hc ha hcount
  · exact ⟨_, step_fetch_ok hpr hps hm, rfl⟩

/-! ## One step -/

/-- An execute stage ends in a next state. -/
theorem executeStage_total (s : State) : ∃ t, executeStage s = .next t := by
  obtain ⟨i, -, hexec⟩ | ⟨-, hexec⟩ := executeStage_cases s <;> rw [hexec]
  · obtain ⟨t, ht, -⟩ | ⟨k, a, s', ht, -⟩ := exec_cases i s <;> exact ⟨_, ht⟩
  · exact ⟨_, rfl⟩

/-- A step ends in a next state. -/
theorem step_total (s : State) : ∃ t, step s = .next t := by
  by_cases hr : s.run = .running
  · cases hs : s.stage with
    | awaitingFetch => exact ⟨_, step_fetch hr hs⟩
    | awaitingDecode => exact ⟨_, step_decode hr hs⟩
    | awaitingOperand => exact ⟨_, step_operand hr hs⟩
    | awaitingExecute =>
      rw [step_execute hr hs]
      exact executeStage_total s
  · exact ⟨s, step_stopped hr⟩

/-- Settles O32: the step is total, and a function has one value. -/
theorem everyStepAnswersANextState : Obligations.EveryStepAnswersANextState := by
  intro s
  obtain ⟨t, h⟩ := step_total s
  refine ⟨t, h, fun t' h' => ?_⟩
  cases h.symm.trans h'
  rfl

/-- A stopped machine's steps lead to the same state alone. -/
theorem stepsTo_stopped_iff {s t : State} {n : Nat} (h : s.run ≠ .running) : StepsTo n s t ↔ t = s := by
  induction n with
  | zero => exact eq_comm
  | succ n ih => simp [StepsTo, step_stopped h, ih]

/-- Settles O31: induction on the number of steps, each of which answers the same state. -/
theorem stoppedMachineDoesNotMove : Obligations.StoppedMachineDoesNotMove :=
  fun _ _ h => ⟨(stepsTo_stopped_iff h).2 rfl, fun _ => (stepsTo_stopped_iff h).1⟩

/-- Settles O33: each completing stage of `step_cases` names the stage it leads to, and a fault keeps STAGE. -/
theorem stageTransitionTable : Obligations.StageTransitionTable := by
  intro s t hr h
  obtain ⟨hs, v, s', hm, rfl⟩ | ⟨hs, hcount, rfl⟩ | ⟨hs, ⟨n, hcount⟩, rfl⟩ | ⟨hs, v, s', hm, rfl⟩ | ⟨hs, i, -, -, c⟩ |
    ⟨k, a, s', rfl, c, -, -⟩ := step_cases hr h
  · have hrun := (memRead_ok_frame hm).1.run
    simp [hs, hrun, hr]
  · simp [hs, hcount, hr]
  · simp [hs, operandCount_succ hcount, hr]
  · have hrun := (memRead_ok_frame hm).1.run
    simp [hs, hrun, hr]
  · have hrun : t.run ≠ .faulted := by
      obtain hrun | ⟨-, hrun⟩ := c.run <;> simp [hrun, hr]
    simp [hs, hrun, c.stage]
  · simp [c.stage]

/-! ## One cycle -/

/-- Between cycles, or stopped: where `run_full_cycle` ends (R129). -/
def AtBoundary (s : State) : Prop := s.stage = .awaitingFetch ∨ s.run ≠ .running

/-- How many stages the longest cycle still has from this one on (R120). -/
def Stage.stagesLeft : Stage → Nat
  | .awaitingFetch => 4
  | .awaitingDecode => 3
  | .awaitingOperand => 2
  | .awaitingExecute => 1

/-- A step that does not end the cycle brings its end nearer. -/
theorem stagesLeft_lt_of_step {s t : State} (hr : s.run = .running) (h : step s = .next t) (hb : ¬ AtBoundary t) :
    t.stage.stagesLeft < s.stage.stagesLeft := by
  obtain ⟨hfetch, hrun⟩ : t.stage ≠ .awaitingFetch ∧ t.run = .running := by simpa [AtBoundary] using hb
  obtain ⟨hdecode, hnext, hexecute, hend⟩ := (stageTransitionTable s t hr h).2 (by simp [hrun])
  cases hs : s.stage with
  | awaitingFetch => rw [hdecode hs]; decide
  | awaitingDecode => obtain ⟨-, ht⟩ | ⟨-, ht⟩ := hnext hs <;> rw [ht] <;> decide
  | awaitingOperand => rw [hexecute hs]; decide
  | awaitingExecute => exact absurd (hend hs) hfetch

/-- `t` is reached from `s` in `n` steps and is the first state at a boundary after `s`. -/
structure FirstBoundary (n : Nat) (s t : State) : Prop where
  steps : StepsTo n s t
  boundary : AtBoundary t
  first : ∀ m u, 1 ≤ m → m < n → StepsTo m s u → ¬ AtBoundary u

theorem FirstBoundary.of_step {s t : State} (h : step s = .next t) (hb : AtBoundary t) : FirstBoundary 1 s t where
  steps := ⟨t, h, rfl⟩
  boundary := hb
  first _ _ hpos hlt := by omega

/-- A step inside a cycle, before the way to its end. -/
theorem FirstBoundary.cons {n : Nat} {s t u : State} (h : step s = .next u) (hb : ¬ AtBoundary u)
    (hrest : FirstBoundary n u t) : FirstBoundary (n + 1) s t where
  steps := ⟨u, h, hrest.steps⟩
  boundary := hrest.boundary
  first := by
    rintro (_ | _ | m) x hpos hlt hx
    · omega
    · obtain ⟨_, hu, rfl⟩ := hx
      cases h.symm.trans hu
      exact hb
    · obtain ⟨_, hu, hx⟩ := hx
      cases h.symm.trans hu
      exact hrest.first (m + 1) x (by omega) (by omega) hx

/-- A step to a boundary ends the cycle. -/
theorem stepsToBoundary_of_boundary {s u : State} (h : step s = .next u) (hb : AtBoundary u) (k : Nat) :
    stepsToBoundary (k + 1) s = .next u := by
  simp only [stepsToBoundary, h]
  exact if_pos hb

/-- After any other step the cycle goes on. -/
theorem stepsToBoundary_of_not_boundary {s u : State} (h : step s = .next u) (hb : ¬ AtBoundary u) (k : Nat) :
    stepsToBoundary (k + 1) s = stepsToBoundary k u := by
  simp only [stepsToBoundary, h]
  exact if_neg hb

/-- As many steps as the cycle has stages left reach its end. -/
theorem stepsToBoundary_reaches {k : Nat} {s : State} (hr : s.run = .running) (hk : s.stage.stagesLeft ≤ k) :
    ∃ n t, 1 ≤ n ∧ n ≤ k ∧ stepsToBoundary k s = .next t ∧ FirstBoundary n s t := by
  induction k generalizing s with
  | zero => cases hs : s.stage <;> simp [hs, Stage.stagesLeft] at hk
  | succ k ih =>
    obtain ⟨u, hu⟩ := step_total s
    by_cases hb : AtBoundary u
    · exact ⟨1, u, le_rfl, by omega, stepsToBoundary_of_boundary hu hb k, .of_step hu hb⟩
    · have hrun : u.run = .running := not_not.1 fun h => hb (.inr h)
      have hlt := stagesLeft_lt_of_step hr hu hb
      obtain ⟨n, t, -, hn, ht, hfirst⟩ := ih hrun (by omega)
      exact ⟨n + 1, t, by omega, by omega, (stepsToBoundary_of_not_boundary hu hb k).trans ht, .cons hu hb hfirst⟩

/-- A full cycle of a running machine ends at the first boundary, within four steps. -/
theorem runFullCycle_reaches {s : State} (hr : s.run = .running) :
    ∃ n t, 1 ≤ n ∧ n ≤ 4 ∧ runFullCycle s = .next t ∧ FirstBoundary n s t :=
  stepsToBoundary_reaches hr (by cases s.stage <;> decide)

/-- Settles O36: no cycle has more than four stages left. -/
theorem fullCycleEndsAtABoundary : Obligations.FullCycleEndsAtABoundary := by
  intro s hr
  obtain ⟨n, t, hpos, hle, ht, hfirst⟩ := runFullCycle_reaches hr
  refine ⟨n, t, hpos, hle, ht, hfirst.steps, hfirst.boundary, fun m u hm hlt hu => ?_⟩
  simpa [AtBoundary] using hfirst.first m u hm hlt hu

/-! ## Runs of cycles -/

theorem StepsTo.trans {j k : Nat} {s u t : State} (h : StepsTo j s u) (h' : StepsTo k u t) : StepsTo (j + k) s t := by
  induction j generalizing s with
  | zero =>
    cases h
    rwa [Nat.zero_add]
  | succ j ih =>
    obtain ⟨x, hx, hrest⟩ := h
    rw [Nat.succ_add]
    exact ⟨x, hx, ih hrest⟩

/-- A stopped machine's run is over at once. -/
theorem runCycles_stopped {s : State} (h : s.run ≠ .running) (n : Nat) : runCycles n s = .next s := by
  cases n with
  | zero => rfl
  | succ n => exact if_pos h

/-- A running machine's run begins with one cycle. -/
theorem runCycles_succ {s u : State} (hr : s.run = .running) (hu : runFullCycle s = .next u) (n : Nat) :
    runCycles (n + 1) s = runCycles n u := by
  simp [runCycles, hr, hu]

/-- A run cut off after any number of cycles is a sequence of steps; it ends at a boundary when it begins at one or has a cycle. -/
theorem runCycles_reaches (n : Nat) (s : State) :
    ∃ k t, runCycles n s = .next t ∧ StepsTo k s t ∧ (AtBoundary s ∨ 0 < n → AtBoundary t) := by
  induction n generalizing s with
  | zero => exact ⟨0, s, rfl, rfl, fun h => h.resolve_right (lt_irrefl 0)⟩
  | succ n ih =>
    by_cases hr : s.run = .running
    · obtain ⟨j, u, -, -, hu, hfirst⟩ := runFullCycle_reaches hr
      obtain ⟨k, t, ht, hsteps, hb⟩ := ih u
      exact ⟨j + k, t, (runCycles_succ hr hu n).trans ht, hfirst.steps.trans hsteps, fun _ => hb (.inl hfirst.boundary)⟩
    · exact ⟨0, s, runCycles_stopped hr _, rfl, fun _ => .inr hr⟩

/-- More cycles change nothing once the machine has stopped. -/
theorem runCycles_mono {n m : Nat} {s t : State} (h : runCycles n s = .next t) (ht : t.run ≠ .running) (hle : n ≤ m) :
    runCycles m s = .next t := by
  induction n generalizing s m with
  | zero =>
    cases h
    exact runCycles_stopped ht m
  | succ n ih =>
    by_cases hr : s.run = .running
    · obtain ⟨_, u, -, -, hu, -⟩ := runFullCycle_reaches hr
      obtain ⟨m, rfl⟩ := Nat.exists_eq_add_of_le' (Nat.one_le_of_lt hle)
      rw [runCycles_succ hr hu] at h ⊢
      exact ih h (Nat.le_of_succ_le_succ hle)
    · rwa [runCycles_stopped hr] at h ⊢

/-- Settles O37: the cycles of a run are steps and end at boundaries, and a stopped machine stays as it is. -/
theorem runEndsCleanlyFaultedOrGoesOn : Obligations.RunEndsCleanlyFaultedOrGoesOn := by
  intro n s
  obtain ⟨k, t, ht, hsteps, hb⟩ := runCycles_reaches n s
  refine ⟨k, t, ht, hsteps, ?_, fun hended m => runCycles_mono ht ?_⟩
  · cases hr : t.run with
    | halted => exact .inl hr
    | faulted => exact .inr (.inl hr)
    | running =>
      refine .inr (.inr ⟨rfl, n.eq_zero_or_pos.imp_right fun hpos => ?_⟩)
      exact (hb (.inr hpos)).resolve_right (not_not_intro hr)
  · obtain hclean | hfaulted := hended
    · exact ne_of_eq_of_ne hclean nofun
    · exact ne_of_eq_of_ne hfaulted nofun

end Sys2Proof.Machine

/-! SUPPORT. Family 41_noop_load_store. The operand forms of the execute stage as equations over the answer of their access, and the
loading rule proved once for every instruction of its form. -/

namespace Sys2Proof.Machine

/-! ## The operand forms, by the answer of their access -/

theorem withOperand_of_ok {addr : Address} {s s' : State} {a : RegisterValue} (h : memRead addr s = .ok a s')
    (k : RegisterValue → State → State) : withOperand addr s k = .next (k a s') := by
  rw [withOperand, h]

theorem withOperand_of_error {addr : Address} {s s' : State} {kind : FaultKind} (h : memRead addr s = .error kind s')
    (k : RegisterValue → State → State) : withOperand addr s k = .next (raiseFault kind addr s') := by
  rw [withOperand, h]

theorem storeOperand_of_ok {addr : Address} {v : RegisterValue} {s s' : State} {u : Unit}
    (h : memWrite addr v s = .ok u s') : storeOperand addr v s = .next s'.endCycle := by
  rw [storeOperand, h]

theorem storeOperand_of_error {addr : Address} {v : RegisterValue} {s s' : State} {kind : FaultKind}
    (h : memWrite addr v s = .error kind s') : storeOperand addr v s = .next (raiseFault kind addr s') := by
  rw [storeOperand, h]

/-- A failed write is a BusFault or a SlaveBoundsFault. -/
theorem memWrite_error_kind {addr : Address} {v : RegisterValue} {s s' : State} {k : FaultKind}
    (h : memWrite addr v s = .error k s') : k = .busFault ∨ k = .slaveBoundsFault := by
  obtain ⟨rfl, -⟩ | ⟨rfl, -⟩ | ⟨rfl, -⟩ := memWrite_error h
  · exact .inl rfl
  · exact .inr rfl
  · exact .inr rfl

/-- A format A instruction that reads its operand and writes `f Acc a` to Acc follows the loading rule for every result that `f`
meets: the read touches no register, so `f` is given the old Acc. -/
theorem loadingRule_of_withOperand {mk : Address → Instr} {opcode : RegisterValue}
    {result : RegisterValue → RegisterValue → RegisterValue → Prop} (f : RegisterValue → RegisterValue → RegisterValue)
    (hencode : ∀ addr, encode (mk addr) = [opcode, toReg addr])
    (hexec : ∀ addr s, exec (mk addr) s = withOperand addr s (fun a t => t.finishAcc (f t.acc a)))
    (hresult : ∀ acc a, result acc a (f acc a)) : LoadingRule mk opcode result := by
  intro s addr
  refine ⟨by rw [hencode, toReg_eq], fun a s' hm => ?_, fun k s' hm => ?_⟩
  · have c := (memRead_ok_frame hm).1
    refine ⟨s'.finishAcc (f s'.acc a), ?_, ?_, rfl⟩
    · rw [hexec, withOperand_of_ok hm]
    · rw [State.finishAcc_acc, c.acc]
      exact hresult s.acc a
  · have c := (memRead_error_frame hm).1
    exact ⟨memRead_error_kind hm, c.acc, by rw [hexec, withOperand_of_error hm]⟩

/-! ## The obligations of the family -/

/-- Settles O10: each clause is the write's answer, as the bus gives it for that kind of resolution, followed by the end of the
cycle or the fault. -/
theorem stWritesAccToTheCell : Obligations.StWritesAccToTheCell := by
  intro s addr
  refine ⟨by rw [encode, toReg_eq], fun u s' hm => storeOperand_of_ok hm, fun v hwf hcell => ?_, fun d off hres => ?_,
    fun k s' hm => ?_⟩
  · obtain ⟨off, hres, hlt, -⟩ := ramCell_some.1 hcell
    have hm := memWrite_ram s.acc hres hlt
    exact ⟨_, storeOperand_of_ok hm, rfl, ramCell_write_same s.acc hwf hres hlt, fun b => ramCell_write_other s.acc hres⟩
  · have hm := memWrite_peripheral s.acc hres
    by_cases haccepts : Config.peripheralAccepts d (s.history d) off s.acc = true
    · rw [if_pos haccepts] at hm ⊢
      exact storeOperand_of_ok hm
    · rw [if_neg haccepts] at hm ⊢
      exact storeOperand_of_error hm
  · exact ⟨memWrite_error_kind hm, (memWrite_error_frame hm).2, storeOperand_of_error hm⟩

/-- Settles O8: fetch and decode of the cell 0 lead to the execute stage, which ends the cycle and does nothing else. -/
theorem noopChangesNothing : Obligations.NoopChangesNothing := by
  refine ⟨rfl, fun s => rfl, fun s s' hr hs hm => ?_⟩
  have hr' : s'.run = .running := (memRead_ok_frame hm).1.run.trans hr
  have hfetched := stepsTo_execute_formatZ hr hs hm rfl
  exact hfetched.trans (k := 1) ⟨_, step_execute_of_instrOf (i := .noop) hr' rfl rfl, rfl⟩

/-- Settles O9: Ld is the loading rule with the operand itself as result. -/
theorem ldCopiesTheCellToAcc : Obligations.LdCopiesTheCellToAcc :=
  loadingRule_of_withOperand (fun _ a => a) (fun _ => rfl) (fun _ _ => rfl) (fun _ _ => rfl)

end Sys2Proof.Machine

/-! SUPPORT. Family 42_arithmetic. What the quotient and the integer square root of the ALU are as integers, and the execute stages
that can raise ArithmeticFault as equations over the divisor and over Acc's sign. -/

namespace Sys2Proof.Machine

/-! ## The ALU's quotient and root, as integers -/

/-- Rounding toward zero divides the magnitudes (R10). -/
theorem truncDiv_natAbs (x y : Int) : (truncDiv x y).natAbs = x.natAbs / y.natAbs :=
  Int.natAbs_tdiv x y

/-- A quotient rounded toward zero is negative exactly when the signs differ and it has not been rounded to 0 (R10). -/
theorem truncDiv_neg_iff (x y : Int) :
    truncDiv x y < 0 ↔ truncDiv x y ≠ 0 ∧ ((x < 0 ∧ 0 < y) ∨ (0 < x ∧ y < 0)) := by
  constructor
  · intro hneg
    refine ⟨hneg.ne, ?_⟩
    by_contra hsigns
    obtain ⟨hx, hy⟩ | ⟨hx, hy⟩ : (0 ≤ x ∧ 0 ≤ y) ∨ (x ≤ 0 ∧ y ≤ 0) := by omega
    · exact hneg.not_ge (Int.tdiv_nonneg hx hy)
    · exact hneg.not_ge (Int.tdiv_nonneg_of_nonpos_of_nonpos hx hy)
  · rintro ⟨hne, ⟨hx, hy⟩ | ⟨hx, hy⟩⟩
    · have hflipped : 0 ≤ (-x).tdiv y := Int.tdiv_nonneg (neg_nonneg.2 hx.le) hy.le
      rw [Int.neg_tdiv] at hflipped
      exact lt_of_le_of_ne (neg_nonneg.1 hflipped) hne
    · exact lt_of_le_of_ne (Int.tdiv_nonpos_of_nonneg_of_nonpos hx.le hy.le) hne

/-- `wrap16` leaves an integer in range as it is. -/
theorem toInt_wrap16_of_range {i : Int} (hlow : -32768 ≤ i) (hhigh : i ≤ 32767) : (wrap16 i).toInt = i :=
  (isWrap16_iff.1 ⟨hlow, hhigh, by simp⟩).symm

/-- The root of a value below 32768 is at most 181, since 182 * 182 is above it. -/
theorem isqrt_le_181 {n : Nat} (h : n < 32768) : isqrt n ≤ 181 := by
  have hroot : isqrt n * isqrt n ≤ n := (isqrt_spec (by omega)).1
  by_contra hgt
  have hsquare : 182 * 182 ≤ isqrt n * isqrt n := Nat.mul_le_mul (by omega) (by omega)
  omega

/-- R165: the root that Sqrt writes is the largest one that fits, and `wrap16` has nothing to reduce. -/
theorem aluSqrt_spec {acc : RegisterValue} (h : 0 ≤ acc.toInt) :
    0 ≤ (aluSqrt acc).toInt ∧ (aluSqrt acc).toInt ≤ 181 ∧ (aluSqrt acc).toInt * (aluSqrt acc).toInt ≤ acc.toInt ∧
      acc.toInt < ((aluSqrt acc).toInt + 1) * ((aluSqrt acc).toInt + 1) := by
  have hacc : acc.toInt < 32768 := BitVec.toInt_lt
  obtain ⟨n, hn⟩ := Int.eq_ofNat_of_zero_le h
  have hle : isqrt n ≤ 181 := isqrt_le_181 (by omega)
  have hroot : (aluSqrt acc).toInt = isqrt n := by
    rw [aluSqrt, hn, Int.toNat_natCast, toInt_wrap16_of_range (by omega) (by omega)]
  obtain ⟨hlow, hhigh⟩ := isqrt_spec (n := n) (by omega)
  rw [hroot, hn]
  exact ⟨by omega, by omega, by exact_mod_cast hlow, by exact_mod_cast hhigh⟩

/-! ## The execute stages that can raise ArithmeticFault -/

/-- Div of a divisor that is not 0 completes with the quotient (R164). -/
theorem execDiv_of_ne_zero {addr : Address} {s s' : State} {a : RegisterValue} (h : memRead addr s = .ok a s')
    (ha : a ≠ 0#16) : execDiv addr s = .next (s'.finishAcc (aluDiv s'.acc a)) := by
  rw [execDiv, withOperand_of_ok h, if_neg ha]

/-- Div of a divisor 0 raises ArithmeticFault on the state the read leaves (R164, R229). -/
theorem execDiv_of_zero {addr : Address} {s s' : State} (h : memRead addr s = .ok 0#16 s') :
    execDiv addr s = .next (raiseFault .arithmeticFault 0#16 s') := by
  rw [execDiv, withOperand_of_ok h, if_pos rfl]

/-- Sqrt of a negative Acc raises ArithmeticFault (R165). -/
theorem execSqrt_of_neg {s : State} (h : s.acc.toInt < 0) :
    execSqrt s = .next (raiseFault .arithmeticFault 0#16 s) := by
  rw [execSqrt, if_pos h]

/-! ## The obligations of the family -/

/-- Settles O11: Add is the loading rule with the wrapped sum as result. -/
theorem addWritesTheWrappedSum : Obligations.AddWritesTheWrappedSum :=
  loadingRule_of_withOperand aluAdd (fun _ => rfl) (fun _ _ => rfl) (fun _ _ => isWrap16_wrap16 _)

/-- Settles O12: Neg makes no access, so the state it completes is the one it is given. -/
theorem negWritesTheWrappedNegation : Obligations.NegWritesTheWrappedNegation :=
  ⟨rfl, fun s => ⟨s.finishAcc (aluNeg s.acc), rfl, isWrap16_wrap16 _, rfl⟩⟩

/-- Settles O13: Mul is the loading rule with the wrapped signed product as result. -/
theorem mulWritesTheWrappedProduct : Obligations.MulWritesTheWrappedProduct :=
  loadingRule_of_withOperand aluMul (fun _ => rfl) (fun _ _ => rfl) (fun _ _ => isWrap16_wrap16 _)

/-- Settles O14: the quotient is the one rounded toward zero, of the old Acc because the read touches no register; the two other
clauses are the zero divisor and the failed read. -/
theorem divTruncatesTowardZeroAndFaultsOnZero : Obligations.DivTruncatesTowardZeroAndFaultsOnZero := by
  intro s addr
  refine ⟨by rw [encode, toReg_eq], fun a s' hm ha => ?_, fun s' hm => ?_, fun k s' hm => ?_⟩
  · have hacc : s'.acc = s.acc := (memRead_ok_frame hm).1.acc
    refine ⟨s'.finishAcc (aluDiv s'.acc a), truncDiv s.acc.toInt a.toInt, execDiv_of_ne_zero hm ha,
      truncDiv_natAbs _ _, truncDiv_neg_iff _ _, ?_, rfl⟩
    rw [State.finishAcc_acc, hacc]
    exact isWrap16_wrap16 _
  · exact ⟨(memRead_ok_frame hm).1.acc, execDiv_of_zero hm⟩
  · exact ⟨memRead_error_kind hm, (memRead_error_frame hm).1.acc, withOperand_of_error hm _⟩

/-- Settles O15: for an Acc that is not negative the four bounds are those of `aluSqrt`; for a negative one Sqrt raises its fault. -/
theorem sqrtWritesTheIntegerSquareRoot : Obligations.SqrtWritesTheIntegerSquareRoot := by
  refine ⟨rfl, fun s h => ?_, fun s h => execSqrt_of_neg h⟩
  obtain ⟨hnonneg, hle, hlow, hhigh⟩ := aluSqrt_spec h
  exact ⟨s.finishAcc (aluSqrt s.acc), execSqrt_of_nonneg h, hnonneg, hle, hlow, hhigh, rfl⟩

end Sys2Proof.Machine

/-! SUPPORT. Family 43_compare_logic. The truth value of R169 by the condition it stands for, and the condition that each comparison
and each logical operation of the ALU tests. -/

namespace Sys2Proof.Machine

/-! ## Truth values and the conditions they stand for -/

/-- R169: a Bool that decides `p` is written as exactly 1 when `p` holds and as exactly 0 when it does not. -/
theorem truthValue_of_iff {b : Bool} {p : Prop} (h : b = true ↔ p) :
    (p → truthValue b = 1#16) ∧ (¬ p → truthValue b = 0#16) :=
  ⟨fun hp => if_pos (h.2 hp), fun hp => if_neg (mt h.1 hp)⟩

theorem nonZero_iff {v : RegisterValue} : nonZero v = true ↔ v ≠ 0#16 := decide_eq_true_iff

theorem not_nonZero_iff {v : RegisterValue} : (!nonZero v) = true ↔ v = 0#16 := by
  rw [Bool.not_eq_true', ← Bool.not_eq_true, nonZero_iff, not_not]

theorem nonZero_and_iff {v w : RegisterValue} : (nonZero v && nonZero w) = true ↔ v ≠ 0#16 ∧ w ≠ 0#16 := by
  rw [Bool.and_eq_true, nonZero_iff, nonZero_iff]

theorem nonZero_or_iff {v w : RegisterValue} : (nonZero v || nonZero w) = true ↔ v ≠ 0#16 ∨ w ≠ 0#16 := by
  rw [Bool.or_eq_true, nonZero_iff, nonZero_iff]

/-- R180: equal bit patterns are equal signed values. -/
theorem decide_eq_iff_toInt_eq {v w : RegisterValue} : decide (v = w) = true ↔ v.toInt = w.toInt :=
  decide_eq_true_iff.trans BitVec.toInt_inj.symm

/-! ## The obligations of the family -/

/-- Settles O16: Eq is the loading rule with the truth value of the signed values' equality as result. -/
theorem eqWritesOneWhenEqual : Obligations.EqWritesOneWhenEqual :=
  loadingRule_of_withOperand aluEq (fun _ => rfl) (fun _ _ => rfl) (fun _ _ => truthValue_of_iff decide_eq_iff_toInt_eq)

/-- Settles O17: Gt is the loading rule with the truth value of the signed comparison as result. -/
theorem gtComparesSignedValues : Obligations.GtComparesSignedValues :=
  loadingRule_of_withOperand aluGt (fun _ => rfl) (fun _ _ => rfl) (fun _ _ => truthValue_of_iff decide_eq_true_iff)

/-- Settles O18: Not makes no access and completes with the truth value of `Acc = 0`. -/
theorem notIsLogicalNegation : Obligations.NotIsLogicalNegation := by
  refine ⟨rfl, fun s => ?_⟩
  have hexec : exec .not s = .next { s with acc := aluNot s.acc, stage := .awaitingFetch } := rfl
  obtain ⟨hone, hzero⟩ : (s.acc = 0#16 → aluNot s.acc = 1#16) ∧ (s.acc ≠ 0#16 → aluNot s.acc = 0#16) :=
    truthValue_of_iff not_nonZero_iff
  exact ⟨fun h => by rw [hexec, hone h], fun h => by rw [hexec, hzero h]⟩

/-- Settles O19: And is the loading rule with the truth value of "both are not 0" as result; the rule's read comes before the
result, whatever Acc is (R185). -/
theorem andIsLogicalConjunction : Obligations.AndIsLogicalConjunction :=
  loadingRule_of_withOperand aluAnd (fun _ => rfl) (fun _ _ => rfl) (fun _ _ => truthValue_of_iff nonZero_and_iff)

/-- Settles O20: Or is the loading rule with the truth value of "one is not 0" as result; the rule's read comes before the result,
whatever Acc is (R185). -/
theorem orIsLogicalDisjunction : Obligations.OrIsLogicalDisjunction :=
  loadingRule_of_withOperand aluOr (fun _ => rfl) (fun _ _ => rfl) (fun _ _ => truthValue_of_iff nonZero_or_iff)

end Sys2Proof.Machine

/-! SUPPORT. Family 44_control. Both branches of Jif as equations over Acc, and the whole cycle of an instruction without operand. -/

namespace Sys2Proof.Machine

/-! ## The two branches of Jif -/

/-- Jif takes the jump for an Acc that is not 0 (R201). -/
theorem execJif_of_ne_zero {s : State} (h : s.acc ≠ 0#16) (target : Address) :
    execJif target s = .next (s.setIa target).endCycle := by
  rw [execJif, if_pos (nonZero_iff.2 h)]

/-- Jif falls through for an Acc of 0 (R201). -/
theorem execJif_of_zero {s : State} (h : s.acc = 0#16) (target : Address) : execJif target s = .next s.endCycle := by
  rw [execJif, if_neg (mt nonZero_iff.1 (not_not_intro h))]

/-! ## The cycle of an instruction without operand -/

/-- Fetch, decode and execute of a cell that decodes alone, from any slave. -/
theorem stepsTo_cycle_formatZ {s s' t : State} {c : RegisterValue} {i : Instr} (hr : s.run = .running)
    (hs : s.stage = .awaitingFetch) (hm : memRead s.ia s = .ok c s') (hdec : decode [c] = .ok (i, []))
    (hexec : exec i { s' with oc := c, ia := nextAddress s.ia, stage := .awaitingExecute } = .next t) : StepsTo 3 s t := by
  have hr' : s'.run = .running := (memRead_ok_frame hm).1.run.trans hr
  obtain ⟨hcount, hi⟩ := formatZ_of_decode hdec s'.arg0
  have hfetched := stepsTo_execute_formatZ hr hs hm hcount
  refine hfetched.trans (k := 1) ⟨t, Eq.trans ?_ hexec, rfl⟩
  exact step_execute_of_instrOf hr' rfl hi

/-! ## The obligations of the family -/

/-- Settles O21: the execute stage of Jmp is one write of IA and the end of the cycle. -/
theorem jmpSetsIaToTheOperandAddress : Obligations.JmpSetsIaToTheOperandAddress :=
  fun _ addr => ⟨by rw [encode, toReg_eq], rfl⟩

/-- Settles O22: the two clauses are the two branches of Jif. -/
theorem jifJumpsExactlyWhenAccIsNotZero : Obligations.JifJumpsExactlyWhenAccIsNotZero :=
  fun _ addr => ⟨by rw [encode, toReg_eq], fun h => execJif_of_ne_zero h addr, fun h => execJif_of_zero h addr⟩

/-- Settles O23: an instruction's opcode cell is the head of its encoding, so no other cell selects Halt; the three steps are the
cycle of an instruction without operand. -/
theorem haltStopsTheMachineCleanly : Obligations.HaltStopsTheMachineCleanly := by
  refine ⟨rfl, fun oc arg => ⟨fun h => opcode_of_instrOf h rfl, ?_⟩, fun s => rfl, fun s s' hr hs hm => ?_⟩
  · rintro rfl
    rfl
  · exact stepsTo_cycle_formatZ hr hs hm (decode_encode .halt []) rfl

end Sys2Proof.Machine

/-! SUPPORT. Family 60_exceptions. The causes of a fault by stage, and a faulting step as one raise of one of them. -/

namespace Sys2Proof.Machine

/-! ## A faulting step is one raise -/

/-- Why the step from `s` to `t` raised `k` with address `a` (R228), one constructor for each stage; the last one is the model's own
choice for states no run reaches (log entry 8). -/
inductive RaisedBy (s t : State) (k : FaultKind) (a : Address) : Prop where
  | fetchOpcode (stage : s.stage = .awaitingFetch) (kind : k = .busFault ∨ k = .slaveBoundsFault) (addr : a = s.ia)
  | decode (stage : s.stage = .awaitingDecode) (kind : k = .invalidInstruction) (illegal : operandCount s.oc = none)
    (addr : a = 0#16)
  | fetchOperand (stage : s.stage = .awaitingOperand) (kind : k = .busFault ∨ k = .slaveBoundsFault) (addr : a = s.ia)
  | execute {i : Instr} (stage : s.stage = .awaitingExecute) (decoded : instrOf s.oc s.arg0 = some i)
    (cause : FaultCause i s k a) (outcome : exec i s = .next t)
  | executeIllegal (stage : s.stage = .awaitingExecute) (kind : k = .invalidInstruction) (illegal : operandCount s.oc = none)

/-- An execute stage that completes leaves a running machine running or halts it. -/
theorem Completes.run_ne_faulted {i : Instr} {s t : State} (c : Completes i s t) (hr : s.run = .running) :
    t.run ≠ .faulted := by
  obtain hrun | ⟨-, hrun⟩ := c.run <;> simp [hrun, hr]

/-- A step of a running machine that ends Faulted has raised one fault and done nothing else to the registers, STAGE, RAM and the
platform (R226): the completing stages do not set RUN to Faulted. -/
theorem step_faulted {s t : State} (hr : s.run = .running) (h : step s = .next t) (hf : t.run = .faulted) :
    ∃ k a s', t = raiseFault k a s' ∧ SameCpu s s' ∧ s'.ram = s.ram ∧ RaisedBy s t k a := by
  obtain ⟨-, v, s', hm, rfl⟩ | ⟨-, -, rfl⟩ | ⟨-, -, rfl⟩ | ⟨-, v, s', hm, rfl⟩ | ⟨-, i, -, -, c⟩ |
    ⟨k, a, s', rfl, c, hram, hcause⟩ := step_cases hr h
  · simp [(memRead_ok_frame hm).1.run, hr] at hf
  · simp [hr] at hf
  · simp [hr] at hf
  · simp [(memRead_ok_frame hm).1.run, hr] at hf
  · exact absurd hf (c.run_ne_faulted hr)
  · refine ⟨k, a, s', rfl, c, hram, ?_⟩
    obtain ⟨hs, hk, ha⟩ | ⟨hs, hk, h0, ha, -⟩ | ⟨hs, hk, ha⟩ | ⟨hs, i, hi, hfault, hexec⟩ | ⟨hs, h0, hk, -⟩ := hcause
    · exact .fetchOpcode hs hk ha
    · exact .decode hs hk h0 ha
    · exact .fetchOperand hs hk ha
    · exact .execute hs hi hfault hexec
    · exact .executeIllegal hs hk h0

/-- Kind None is never raised (R220). -/
theorem FaultCause.kind_ne_none {i : Instr} {s : State} {k : FaultKind} {a : Address} (h : FaultCause i s k a) :
    k ≠ .none := by
  obtain ⟨rfl | rfl, -⟩ | ⟨rfl, -⟩ := h <;> decide

theorem RaisedBy.kind_ne_none {s t : State} {k : FaultKind} {a : Address} (h : RaisedBy s t k a) : k ≠ .none := by
  cases h with
  | fetchOpcode _ hk | fetchOperand _ hk => obtain rfl | rfl := hk <;> decide
  | decode _ hk | executeIllegal _ hk => rw [hk]; decide
  | execute _ _ hcause => exact hcause.kind_ne_none

/-! ## The one access of a step, at its peripheral -/

/-- An access touches no peripheral but the one it resolves to, which receives it (R61, R62). -/
theorem masterAnswer_deviceLog (r : MasterRequest) (s : State) :
    (masterAnswer r s).2.deviceLog = s.deviceLog ∨
      ∃ d off, resolve s.platform.bindings r.addr = some (.peripheral d, off) ∧
        (masterAnswer r s).2.deviceLog = ⟨d, if r.we then .write off r.wdata else .read off⟩ :: s.deviceLog := by
  cases hw : r.we with
  | false => exact (masterAnswer_read_frame hw s).2
  | true => exact masterAnswer_write_deviceLog hw s

/-- A step leaves the peripherals' history as it is or adds the one access of its request (R51, R121). -/
theorem step_deviceLog {s t : State} (h : step s = .next t) :
    t.deviceLog = s.deviceLog ∨
      ∃ r d off, nextRequest s = some r ∧ resolve s.platform.bindings r.addr = some (.peripheral d, off) ∧
        t.deviceLog = ⟨d, if r.we then .write off r.wdata else .read off⟩ :: s.deviceLog := by
  rw [(step_accesses h).deviceLog]
  cases nextRequest s with
  | none => exact .inl rfl
  | some r => exact (masterAnswer_deviceLog r s).imp_right fun ⟨d, off, hd⟩ => ⟨r, d, off, rfl, hd⟩

/-! ## The causes in the execute stage -/

/-- The opcode cells of the instructions that access memory (R51, R94). -/
theorem opcode_of_dataRequest {oc acc : RegisterValue} {arg0 : Address} {i : Instr} {r : MasterRequest}
    (h : instrOf oc arg0 = some i) (hreq : dataRequest acc i = some r) :
    oc ∈ [0x0001#16, 0x0002#16, 0x0003#16, 0x0005#16, 0x0006#16, 0x0007#16, 0x0008#16, 0x000A#16, 0x000B#16] := by
  cases i with
  | noop | neg | not | jmp | jif | sqrt | halt => cases hreq
  | ld | st | add | mul | div | eq | gt | and | or => rw [opcode_of_instrOf h rfl]; decide

/-- Sqrt faults only on a negative Acc (R165). -/
theorem acc_neg_of_execSqrt_faulted {s t : State} (hr : s.run = .running) (h : execSqrt s = .next t)
    (hf : t.run = .faulted) : s.acc.toInt < 0 := by
  by_contra hneg
  cases (execSqrt_of_nonneg (not_lt.1 hneg)).symm.trans h
  simp [hr] at hf

/-- Div raises ArithmeticFault only when its operand reads as 0 (R164): another operand completes, and a failed read raises the
fault of the access. -/
theorem memRead_zero_of_execDiv_arithmeticFault {addr : Address} {s t : State} (hr : s.run = .running)
    (h : execDiv addr s = .next t) (hf : t.run = .faulted) (hk : t.fault.kind = .arithmeticFault) :
    ∃ s', memRead addr s = .ok 0#16 s' := by
  cases hm : memRead addr s with
  | ok a s' =>
    by_cases ha : a = 0#16
    · exact ⟨s', by rw [ha]⟩
    · cases (execDiv_of_ne_zero hm ha).symm.trans h
      simp [(memRead_ok_frame hm).1.run, hr] at hf
  | error k s' =>
    cases (withOperand_of_error hm _).symm.trans h
    obtain rfl | rfl := memRead_error_kind hm <;> cases hk

/-! ## The obligations of the family -/

/-- Settles O34: a faulting step is one raise on the registers, STAGE, RAM and the platform as they stood, and its access is the
one of its request. -/
theorem faultLeavesRegistersStageRamAndPlatform : Obligations.FaultLeavesRegistersStageRamAndPlatform := by
  intro s t hr h hf
  obtain ⟨k, a, s', rfl, c, hram, hcause⟩ := step_faulted hr h hf
  exact ⟨c.ia, c.oc, c.arg0, c.acc, c.stage, hram, c.platform, hcause.kind_ne_none, c.ia, c.oc, step_deviceLog h⟩

/-- Settles O35: each cause of a raise is a row of the table; in the execute stage the decoded instruction gives the opcode, and
the outcome of Div or Sqrt gives the operand or the Acc that made it fault. -/
theorem faultTable : Obligations.FaultTable := by
  intro s t hr h hf
  obtain ⟨k, a, s', rfl, -, -, hcause⟩ := step_faulted hr h hf
  cases hcause with
  | fetchOpcode hs hk ha => exact .inl ⟨hs, hk, ha⟩
  | decode hs hk h0 ha => exact .inr (.inl ⟨hs, hk, h0, ha⟩)
  | fetchOperand hs hk ha => exact .inr (.inr (.inl ⟨hs, hk, ha⟩))
  | executeIllegal hs hk h0 => exact .inr (.inr (.inr ⟨hs, .inr (.inr ⟨hk, h0⟩)⟩))
  | execute hs hi hfault hexec =>
    refine .inr (.inr (.inr ⟨hs, ?_⟩))
    obtain ⟨hk, r, hreq, ha⟩ | ⟨hk, ha, rfl | ⟨addr, rfl⟩⟩ := hfault
    · exact .inl ⟨hk, ha.symm.trans (dataRequest_addr hi hreq), opcode_of_dataRequest hi hreq⟩
    · exact .inr (.inl ⟨hk, ha, .inr ⟨opcode_of_instrOf hi rfl, acc_neg_of_execSqrt_faulted hr hexec hf⟩⟩)
    · obtain rfl : addr = s.arg0 := operand_of_instrOf hi (by simp [encode])
      exact .inr (.inl ⟨hk, ha, .inl ⟨opcode_of_instrOf hi rfl, memRead_zero_of_execDiv_arithmeticFault hr hexec hf hk⟩⟩)

end Sys2Proof.Machine

/-! SUPPORT. Family 70_reset_and_hazards. The cells of a loaded image read back, the three outcomes of `load_program`,
what each host command keeps of the invariant, and the run of an empty RAM. -/

namespace Sys2Proof.Machine

/-! ## RAM after a list of cells is written -/

/-- Writing a list leaves every offset outside it alone. -/
theorem Memory.read_writeAll_outside {off o : Nat} (m : Memory) (vs : List RegisterValue)
    (h : o < off ∨ off + vs.length ≤ o) : read (writeAll m off vs) o = read m o := by
  induction vs generalizing m off with
  | nil => rfl
  | cons v vs ih =>
    rw [List.length_cons] at h
    exact (ih (write m off v) (by omega)).trans (read_write_other v (by omega))

/-- Each cell of the list is read back at its own offset: no later write reaches it. -/
theorem Memory.read_writeAll_inside {off i : Nat} {m : Memory} {v : RegisterValue} {vs : List RegisterValue}
    (hm : wf m = true) (h : vs[i]? = some v) : read (writeAll m off vs) (off + i) = v := by
  induction vs generalizing m off i with
  | nil => cases h
  | cons w vs ih =>
    cases i with
    | zero =>
      cases h
      exact (read_writeAll_outside _ vs (.inl (Nat.lt_succ_self off))).trans (read_write_same off v hm)
    | succ i =>
      rw [← Nat.succ_add_eq_add_succ]
      exact ih (write_wf off w hm) h

/-! ## The outcomes of `load_program` -/

theorem hostLoadProgram_of_fits {cells : List Int} {s : State} (hs : s.stage = .awaitingFetch)
    (hfits : cells.length ≤ s.platform.ramCapacity) :
    hostLoadProgram cells s = .next (s.setRam (Memory.writeAll s.ram 0 (cells.map wrap16))) := by
  rw [hostLoadProgram, if_neg (not_not_intro hs), if_pos hfits]

theorem hostLoadProgram_of_too_long {cells : List Int} {s : State} (hs : s.stage = .awaitingFetch)
    (hlong : s.platform.ramCapacity < cells.length) : hostLoadProgram cells s = .refused .programTooLong := by
  rw [hostLoadProgram, if_neg (not_not_intro hs), if_neg (not_le.2 hlong)]

theorem hostLoadProgram_during_cycle {s : State} (hs : s.stage ≠ .awaitingFetch) (cells : List Int) :
    hostLoadProgram cells s = .refused .loadDuringCycle := if_pos hs

/-- A load that is not refused writes an image that fits, and nothing else. -/
theorem hostLoadProgram_next {cells : List Int} {s t : State} (h : hostLoadProgram cells s = .next t) :
    cells.length ≤ s.platform.ramCapacity ∧ t = s.setRam (Memory.writeAll s.ram 0 (cells.map wrap16)) := by
  by_cases hs : s.stage = .awaitingFetch
  · by_cases hfits : cells.length ≤ s.platform.ramCapacity
    · cases (hostLoadProgram_of_fits hs hfits).symm.trans h
      exact ⟨hfits, rfl⟩
    · cases (hostLoadProgram_of_too_long hs (not_le.1 hfits)).symm.trans h
  · cases (hostLoadProgram_during_cycle hs cells).symm.trans h

/-! ## The invariant under the host's commands -/

/-- What the record says is decided by the registers, STAGE and the record itself. -/
theorem SameCpu.faultRecordMatches_iff {s t : State} (c : SameCpu s t) : faultRecordMatches t ↔ faultRecordMatches s := by
  simp only [faultRecordMatches, faultRecordMatches.accessStage, c.ia, c.oc, c.arg0, c.acc, c.stage, c.fault]

/-- A change of RAM and peripherals alone keeps the invariant when RAM stays in canonical form inside its capacity. -/
theorem State.Inv.of_sameCpu {s t : State} (hs : s.Inv) (c : SameCpu s t) (hwf : Memory.wf t.ram = true)
    (hbounded : ∀ x ∈ t.ram, x.1 < s.platform.ramCapacity) : t.Inv where
  platform_wf := c.platform ▸ hs.platform_wf
  ram_wf := hwf
  ram_bounded := c.platform ▸ hbounded
  operand_stage := by simpa only [c.stage, c.oc] using hs.operand_stage
  execute_stage := by simpa only [c.stage, c.oc] using hs.execute_stage
  record_clear := by simpa only [c.run, c.fault] using hs.record_clear
  record_set := by simpa only [c.run, c.faultRecordMatches_iff] using hs.record_set
  halted_boundary := by simpa only [c.run, c.stage, c.oc] using hs.halted_boundary

/-- A reset of the registers leaves a running machine between cycles with a clear record, whatever it was before (R260). -/
theorem cpuReset_inv {s : State} (hs : s.Inv) : (cpuReset s).Inv where
  platform_wf := hs.platform_wf
  ram_wf := hs.ram_wf
  ram_bounded := hs.ram_bounded
  operand_stage h := by cases h
  execute_stage h := by cases h
  record_clear _ := rfl
  record_set h := by cases h
  halted_boundary h := by cases h

/-- Cleared RAM is in canonical form (R261). -/
theorem systemReset_inv {s : State} (hs : s.Inv) : (systemReset s).Inv :=
  cpuReset_inv (hs.of_sameCpu (sameCpu_setRam s []) rfl nofun)

/-- An image that fits is written inside RAM's capacity, in canonical form (R265). -/
theorem hostLoadProgram_inv {cells : List Int} {s t : State} (hs : s.Inv) (h : hostLoadProgram cells s = .next t) :
    t.Inv := by
  obtain ⟨hfits, rfl⟩ := hostLoadProgram_next h
  refine hs.of_sameCpu (sameCpu_setRam ..) (Memory.writeAll_wf 0 _ hs.ram_wf) (Memory.writeAll_bounded _ hs.ram_bounded ?_)
  simpa using hfits

/-- An inspection touches no register and no RAM cell (R70). -/
theorem hostInspect_inv {s : State} (hs : s.Inv) (addr : Address) : (hostInspect addr s).2.Inv := by
  obtain ⟨c, hram⟩ := hostInspect_frame addr s
  exact hs.of_sameCpu c (hram ▸ hs.ram_wf) (hram ▸ hs.ram_bounded)

/-! ## The run of an empty RAM -/

/-- Power-on of `n` cells of RAM alone, but for IA at `k`: where the machine stands after `k` Noops. -/
def emptyRamAt (n k : Nat) : State := { State.powerOn (vmLayout n []) with ia := BitVec.ofNat 16 k }

theorem nextAddress_ofNat (k : Nat) : nextAddress (BitVec.ofNat 16 k) = BitVec.ofNat 16 (k + 1) :=
  (nextAddress_eq _).trans (BitVec.ofNat_add ..).symm

/-- A cell of the empty RAM reads as 0 (R37). -/
theorem memRead_emptyRamAt {n k : Nat} (hk : k < n) (hn : n < 65536) :
    memRead (emptyRamAt n k).ia (emptyRamAt n k) = .ok 0#16 (emptyRamAt n k) := by
  have haddr : (BitVec.ofNat 16 k).toNat = k := Nat.mod_eq_of_lt (hk.trans hn)
  obtain ⟨-, -, hresolve⟩ := (vmLayoutPlacesRamThenPeripherals n []).2 hn.le
  exact memRead_ram ((hresolve (BitVec.ofNat 16 k)).1 (haddr.trans_lt hk)) (haddr.trans_lt hk)

/-- The address after the last cell is unmapped (R60). -/
theorem memRead_emptyRamAt_end {n : Nat} (hn : n < 65536) :
    memRead (emptyRamAt n n).ia (emptyRamAt n n) = .error .busFault (emptyRamAt n n) := by
  have haddr : (BitVec.ofNat 16 n).toNat = n := Nat.mod_eq_of_lt hn
  obtain ⟨-, -, hresolve⟩ := (vmLayoutPlacesRamThenPeripherals n []).2 hn.le
  exact memRead_unmapped ((hresolve (BitVec.ofNat 16 n)).2.2 haddr.ge)

/-- Each cell of the empty RAM is a Noop, whose cycle advances IA and changes nothing else (R150). -/
theorem stepsTo_emptyRamAt_succ {n k : Nat} (hk : k < n) (hn : n < 65536) :
    StepsTo 3 (emptyRamAt n k) (emptyRamAt n (k + 1)) := by
  have hcycle := noopChangesNothing.2.2 _ _ rfl rfl (memRead_emptyRamAt hk hn)
  have hia : nextAddress (emptyRamAt n k).ia = BitVec.ofNat 16 (k + 1) := nextAddress_ofNat k
  rwa [hia] at hcycle

theorem stepsTo_emptyRamAt {n k : Nat} (hk : k ≤ n) (hn : n < 65536) :
    StepsTo (3 * k) (State.powerOn (vmLayout n [])) (emptyRamAt n k) := by
  induction k with
  | zero => rfl
  | succ k ih => exact (ih (Nat.le_of_lt hk)).trans (stepsTo_emptyRamAt_succ hk hn)

/-! ## The obligations of the family -/

/-- Settles O57: a step keeps the invariant, a reset restores what it says of the registers, and a load or an inspection changes
RAM or peripherals alone. -/
theorem hostCommandsKeepTheInvariant : Obligations.HostCommandsKeepTheInvariant := by
  intro c s t hs h
  cases c with
  | step => exact stepKeepsTheInvariant s t hs h
  | cpuReset =>
    cases h
    exact cpuReset_inv hs
  | systemReset =>
    cases h
    exact systemReset_inv hs
  | loadProgram cells => exact hostLoadProgram_inv hs h
  | inspect addr =>
    cases h
    exact hostInspect_inv hs addr

/-- Settles O50: both resets are writes of constants, and the cells that addresses name depend on RAM and the platform alone. -/
theorem resetsRestoreTheResetValues : Obligations.ResetsRestoreTheResetValues := by
  intro s
  refine ⟨cpuReset s, systemReset s, rfl, rfl, rfl, rfl, fun _ => rfl, ramCell_congr rfl rfl, fun addr hcell => ?_,
    rfl, rfl, rfl⟩
  obtain ⟨v, hv⟩ := Option.isSome_iff_exists.1 hcell
  obtain ⟨off, hres, hlt, -⟩ := ramCell_some.1 hv
  exact ramCell_some.2 ⟨off, hres, hlt, rfl⟩

/-- Settles O51: each offset of the image reads back its own cell, and every other offset is left alone. -/
theorem loadProgramWritesTheImageFromZero : Obligations.LoadProgramWritesTheImageFromZero := by
  intro s cells hwf
  refine ⟨fun hs hfits => ?_, hostLoadProgram_of_too_long, fun hs => hostLoadProgram_during_cycle hs cells⟩
  refine ⟨_, hostLoadProgram_of_fits hs hfits, rfl, fun i c hc => ?_, fun i hi => ?_⟩
  · have hcell : (cells.map wrap16)[i]? = some (wrap16 c) := List.getElem?_map.trans (congrArg _ hc)
    have hread := Memory.read_writeAll_inside (off := 0) hwf hcell
    rw [Nat.zero_add] at hread
    rw [State.setRam_ram, hread]
    exact isWrap16_wrap16 c
  · exact Memory.read_writeAll_outside s.ram _ (.inr (by simpa using hi))

/-- Settles O53: one Noop cycle for each of the `n` cells, then the fetch from the unmapped address `n` faults. -/
theorem emptyRamRunsNoopsThenBusFaults : Obligations.EmptyRamRunsNoopsThenBusFaults := by
  intro n hn
  have hfault := step_fetch_error (s := emptyRamAt n n) rfl rfl (memRead_emptyRamAt_end hn)
  exact (stepsTo_emptyRamAt (Nat.le_refl n) hn).trans ⟨_, hfault, rfl⟩

end Sys2Proof.Machine
